-- ==== Sys2Proof/Word.lean ====
section
/-! DEFINITION. The word types of the block: spec 00_scope.md R9, R10 (everything is unsigned). -/

namespace Sys2Proof

/-- A wire byte, a command data byte, a sequence number, a node id: 8 bits (R9). -/
abbrev Byte := BitVec 8

/-- A CRC, a good or lost counter, the `info` of an error event: 16 bits (R9). -/
abbrev Half := BitVec 16

/-- A command word or a response word: 32 bits (30_encoding.md R70, 43_statistics.md R201). -/
abbrev Word := BitVec 32

end Sys2Proof
end

