-- ==== Sys2Proof/Syntax.lean ====
section
/-! DEFINITION. The six commands (spec 30_encoding.md R72) and the names of what the decoder rejects (R78). -/

namespace Sys2Proof

/-- One constructor per row of the opcode table. TX_WRITE carries its attached bytes and no separate length, as R74 allows (DESIGN CHOICE, assumption log 11, safe):
`LEN` is the number of the bytes. -/
inductive Instr where
  /-- TX_BEGIN `node`, `hdr` (format B). -/
  | txBegin (node hdr : Byte)
  /-- TX_WRITE with its attached bytes, first byte first (format W). -/
  | txWrite (data : List Byte)
  /-- TX_END (format Z). -/
  | txEnd
  /-- TX_RESYNC (format Z). -/
  | txResync
  /-- RX_FEED of one wire byte (format F). -/
  | rxFeed (c : Byte)
  /-- RX_STATUS of one node (format S). -/
  | rxStatus (node : Byte)
  deriving DecidableEq, Repr

/-- Why a (word, attached list) pair is no command (R74, R75, R78). Each one is the model fault `IllegalCommand` (R233). -/
inductive DecodeError where
  /-- `OP` is 0x0 or 0x7 to 0xF. -/
  | reservedOpcode
  /-- A bit the format marks 0 is 1. -/
  | nonZeroReserved
  /-- TX_WRITE whose attached list is not `LEN` bytes long. -/
  | wrongLength
  /-- Attached bytes on a command that takes none. -/
  | unexpectedData
  deriving DecidableEq, Repr

end Sys2Proof
end

