-- ==== Sys2Proof/WellFormed.lean ====
section
/-! DEFINITION. Which instruction terms stand for a command word (spec 30_encoding.md R70, R74). -/

namespace Sys2Proof

/-- An instruction is well formed when the fields of its format hold its operands. Every operand but one is as wide as its field;
the number of a TX_WRITE's attached bytes must fit the 16-bit `LEN`. A node of `MAX_NODES` or more is well formed: it is checked
when the command runs (R73). -/
def Instr.wellFormed : Instr → Bool
  | .txBegin _ _ => true
  | .txWrite data => decide (data.length < 65536)
  | .txEnd => true
  | .txResync => true
  | .rxFeed _ => true
  | .rxStatus _ => true

end Sys2Proof
end

