-- ==== Sys2Proof/Decode.lean ====
section
/-! DEFINITION. Decoding a (command word, attached list) pair, and the encoder: spec 30_encoding.md R70 to R78. -/

namespace Sys2Proof

/-! ### The fields of a command word (R70, R73) -/

/-- `OP`, bits 31:28. -/
def fieldOp (w : Word) : BitVec 4 := w.extractLsb' 28 4
/-- `RSV`, bits 27:24. -/
def fieldRsv (w : Word) : BitVec 4 := w.extractLsb' 24 4
/-- `NODE`, bits 23:16. -/
def fieldNode (w : Word) : Byte := w.extractLsb' 16 8
/-- `HDR`, bits 15:8. -/
def fieldHdr (w : Word) : Byte := w.extractLsb' 8 8
/-- `BYTE`, bits 7:0. -/
def fieldByte (w : Word) : Byte := w.extractLsb' 0 8
/-- `LEN`, bits 15:0. -/
def fieldLen (w : Word) : Half := w.extractLsb' 0 16

/-- The tail every format shares: the must-be-zero bits are zero and no bytes are attached (R75, R78). -/
def plainCommand {n : Nat} (mustBeZero : BitVec n) (data : List Byte) (i : Instr) : Except DecodeError Instr :=
  if mustBeZero ≠ 0 then .error .nonZeroReserved
  else if data ≠ [] then .error .unexpectedData
  else .ok i

/-- Format W: the attached list is exactly `LEN` bytes long (R74). -/
def writeCommand (w : Word) (data : List Byte) : Except DecodeError Instr :=
  if fieldNode w ≠ 0 then .error .nonZeroReserved
  else if data.length ≠ (fieldLen w).toNat then .error .wrongLength
  else .ok (.txWrite data)

/-- R78: command decoding, total on every word and every list. -/
def decode (w : Word) (data : List Byte) : Except DecodeError Instr :=
  if fieldRsv w ≠ 0 then .error .nonZeroReserved
  else if fieldOp w = 0x1#4 then plainCommand (fieldByte w) data (.txBegin (fieldNode w) (fieldHdr w))
  else if fieldOp w = 0x2#4 then writeCommand w data
  else if fieldOp w = 0x3#4 then plainCommand (w.extractLsb' 0 24) data .txEnd
  else if fieldOp w = 0x4#4 then plainCommand (w.extractLsb' 0 24) data .txResync
  else if fieldOp w = 0x5#4 then plainCommand (w.extractLsb' 8 16) data (.rxFeed (fieldByte w))
  else if fieldOp w = 0x6#4 then plainCommand (fieldLen w) data (.rxStatus (fieldNode w))
  else .error .reservedOpcode

/-! ### The encoder (R71) -/

/-- The command word of an instruction, field by field from bit 31 down as R71 draws the formats. -/
def encodeWord : Instr → Word
  | .txBegin node hdr => 0x1#4 ++ 0x0#4 ++ node ++ hdr ++ 0x00#8
  | .txWrite data => 0x2#4 ++ 0x0#4 ++ 0x00#8 ++ BitVec.ofNat 16 data.length
  | .txEnd => 0x3#4 ++ 0x0#4 ++ 0x000000#24
  | .txResync => 0x4#4 ++ 0x0#4 ++ 0x000000#24
  | .rxFeed c => 0x5#4 ++ 0x0#4 ++ 0x0000#16 ++ c
  | .rxStatus node => 0x6#4 ++ 0x0#4 ++ node ++ 0x0000#16

/-- The bytes attached to an instruction's word (R74). -/
def encodeData : Instr → List Byte
  | .txBegin _ _ => []
  | .txWrite data => data
  | .txEnd => []
  | .txResync => []
  | .rxFeed _ => []
  | .rxStatus _ => []

/-- The (word, attached list) pair of an instruction. -/
def encode (i : Instr) : Word × List Byte := (encodeWord i, encodeData i)

/-! ### The opcode table's numbering of an instruction's bits -/

/-- `n` attached bytes out of the bits that follow the command word, lowest bits first. -/
def attachedBytes : Nat → Nat → List Byte
  | 0, _ => []
  | n + 1, bits => BitVec.ofNat 8 bits :: attachedBytes n (bits / 256)

/-- The command word in the bits of a table instruction: bits 31:0. -/
def tableWord (nbits w : Nat) : Word := BitVec.ofNat 32 (w % 2 ^ nbits)

/-- The attached bytes in the bits of a table instruction (DESIGN CHOICE, assumption log 7, safe): TX_WRITE's `LEN` bytes, from bit 32 on (zeros where the table gives the
row no such bits); no other command has any (R77). -/
def tableData (nbits w : Nat) : List Byte :=
  let word := tableWord nbits w
  if fieldOp word = 0x2#4 then attachedBytes (fieldLen word).toNat (w % 2 ^ nbits / 2 ^ 32) else []

/-- What `decode` reads from an instruction whose bits are `w`, numbered as the opcode table numbers them. -/
def decodeTableWord (nbits w : Nat) : Option Instr :=
  match decode (tableWord nbits w) (tableData nbits w) with
  | .ok i => some i
  | .error _ => none

end Sys2Proof
end

