-- ==== Sys2Proof/Config.lean ====
section
/-! DEFINITION. The implementation parameters of the block: spec 00_scope.md R6, R7. They are DATA, a configuration that reset
installs (70_reset_and_hazards.md R252), so every claim is stated for every configuration. -/

namespace Sys2Proof

/-- Names the CRC update function of a configuration (40_crc.md R101: `CRC_STEP` is a parameter). `reference` is the spec's
reference instance; `other k` is a function nothing is known of (`crcStepOther k`), so a claim proved for every configuration
holds whatever CRC the real block computes. -/
inductive CrcAlgorithm where
  | reference
  | other (k : Nat)
  deriving DecidableEq, Repr

/-- FREE VALUE (DESIGN CHOICE, assumption log 2, safe): the CRC update functions that are not the reference instance. No body: nothing can be proved
of its values beyond its being a function of the accumulator and the byte, which is all R101 says of `CRC_STEP`. -/
opaque crcStepOther : Nat → Half → Byte → Half

/-- The parameters of R6, fixed from reset onward (as data: DESIGN CHOICE, assumption log 1, safe). -/
structure Config where
  /-- `MAX_NODES`: a node id `n` is valid iff `n < MAX_NODES`. -/
  maxNodes : Nat
  /-- `BROADCAST_NODE`: the reserved broadcast id; the block treats it as any other node (41_transmit.md R132). -/
  broadcastNode : Byte
  /-- `MAX_TRANSMIT`: the longest TX_WRITE that is sent. -/
  maxTransmit : Nat
  /-- `RX_CAPACITY`: the size of the RX assembly buffer in bytes. -/
  rxCapacity : Nat
  /-- `LOCAL_NODE`: used by the `transmitStart` pseudo-instructions only (30_encoding.md R87). -/
  localNode : Byte
  /-- `CRC_INIT`: what resetting a CRC accumulator leaves in it. -/
  crcInit : Half
  /-- `CRC_STEP`, by name. -/
  crcAlgorithm : CrcAlgorithm
  deriving DecidableEq, Repr

/-- The bounds a configuration meets (R7). -/
abbrev Config.Legal (c : Config) : Prop :=
  1 ≤ c.maxNodes ∧ c.maxNodes ≤ 255 ∧
  c.broadcastNode.toNat < c.maxNodes ∧ c.localNode.toNat < c.maxNodes ∧
  3 ≤ c.rxCapacity ∧ c.rxCapacity ≤ 65535 ∧
  c.maxTransmit ≤ 65535

/-- The extra bound the round trip of a whole payload needs (R8); a configuration without it is legal. -/
abbrev Config.HoldsLongestFrame (c : Config) : Prop :=
  c.maxTransmit + 4 ≤ c.rxCapacity

end Sys2Proof
end

