-- ==== Sys2Proof/Machine/Parameters.lean ====
section
/-! DEFINITION. The reference configuration (spec 00_scope.md R6) and the reset values that are the spec's own choices
(70_reset_and_hazards.md R250). -/

namespace Sys2Proof.Machine

/-- The reference values of R6, used by `State.reset`. -/
def referenceConfig : Config where
  maxNodes := 64
  broadcastNode := 63
  maxTransmit := 300
  rxCapacity := 304
  localNode := 1
  crcInit := 0xFFFF
  crcAlgorithm := .reference

/-- `need_break` at reset: the first TX_BEGIN is the first transmission (10_state.md R24). -/
def resetNeedBreak : Bool := true
/-- `tx_seq[n]` at reset (10_state.md R27). -/
def resetTxSeq : Byte := 0x00
/-- `last_seq[n]` at reset: a first frame with sequence 0 counts no loss (10_state.md R35). -/
def resetLastSeq : Byte := 0xFF

end Sys2Proof.Machine
end

