-- ==== Sys2Proof/Machine/State.lean ====
section
/-! DEFINITION. The state of the block, its outputs and its stops: spec 10_state.md R20 to R46. Plain data. -/

namespace Sys2Proof.Machine

/-- The storage of the assembly buffer: (index, byte) pairs, indices strictly rising, no byte equal to what an unlisted index
reads as (`Memory.wf` in Machine/Ops.lean). -/
abbrev Memory := List Host.Cell

/-- R38: an item of the transport output. -/
inductive TxItem where
  /-- The begin-transmission callback. -/
  | start
  /-- One wire byte. -/
  | byte (b : Byte)
  /-- The end-of-transmission callback. -/
  | stop
  deriving DecidableEq, Repr

/-- 60_exceptions.md R221: the kinds of error event; their numeric codes are `ErrKind.code`. -/
inductive ErrKind where
  | addr
  | crc
  | overflow
  | txOversize
  deriving DecidableEq, Repr

/-- R39: an item of the event trace. -/
inductive Event where
  /-- An accepted frame: its node, and its header and payload bytes. -/
  | frame (node : Byte) (payload : List Byte)
  /-- An error report. It is no exception: the machine goes on (60_exceptions.md R220). -/
  | error (kind : ErrKind) (info : Half)
  deriving DecidableEq, Repr

/-- 42_receive.md R161: the decoder's three states, a function of `rxBusy` and `delim` (Machine/Flags.lean), not stored. -/
inductive DecoderState where
  | idle
  | addressing
  | receiving
  deriving DecidableEq, Repr

/-- The model faults of 60_exceptions.md R230: commands the block gives no meaning. Raising one is a NEXT state in which the fault
mark is set and nothing else differs; the step after it stops with `Host.Outcome.fault` under the same name (DESIGN CHOICE,
assumption log 8, safe). -/
inductive Fault where
  /-- Raised by a word or a word-and-list pair that `decode` rejects (R233). Safe: the real block might do something harmless. -/
  | illegalCommand
  /-- Raised by TX_BEGIN and RX_STATUS of a node that is not below `MAX_NODES` (R231). Safe. -/
  | badNode
  /-- Raised by TX_WRITE and TX_END while no frame is open (R232). Safe. -/
  | txNotActive
  deriving DecidableEq, Repr

/-- What the model has no meaning for. -/
inductive Refusal where
  /-- Raised by an arm of `exec` whose instruction has no meaning yet. Safe. No arm is left that raises it. -/
  | notModelled (mnemonic : String)
  /-- Raised by a host reset whose configuration breaks 00_scope.md R7: the host must not give one
  (70_reset_and_hazards.md R254), and the spec gives it no effect. Safe. -/
  | illegalConfiguration
  deriving DecidableEq, Repr

/-- What the host sends (60_exceptions.md R240): commands, and reset with a configuration. -/
inductive HostInput where
  /-- A command word with its attached bytes (30_encoding.md R70, R74). -/
  | command (word : Word) (data : List Byte)
  /-- Reset with a configuration, the source's `linkInit` (30_encoding.md R91, 70_reset_and_hazards.md R252). -/
  | reset (cfg : Config)
  deriving DecidableEq, Repr

/-- Everything the spec gives the block. The last field, `pending`, is the model's own: the host's inputs in issue order, which the
host is the source of (00_scope.md R16; DESIGN CHOICE, assumption log 6, safe). The three traces carry no tags across them
(DESIGN CHOICE, assumption log 9, safe). -/
structure State where
  /-- The configuration installed at reset; no command changes it (00_scope.md R6). -/
  cfg : Config
  /-- R23 `tx_active`: a frame is open. -/
  txActive : Bool
  /-- R24 `need_break`: the next TX_BEGIN sends an opening break. -/
  needBreak : Bool
  /-- R25 `tx_crc`. -/
  txCrc : Half
  /-- R26 `esc_run`: delimiter-valued frame bytes taken and not yet sent. -/
  escRun : Byte
  /-- R27 `tx_seq`, one entry per node. -/
  txSeq : List Byte
  /-- R28 `rx_busy`: the decoder is Receiving. -/
  rxBusy : Bool
  /-- R29 `delim`: consecutive delimiters, 2 for two or more. -/
  delim : Fin 3
  /-- R30 `rx_node`. -/
  rxNode : Byte
  /-- R31 `rx_crc`. -/
  rxCrc : Half
  /-- R32 `rx_len`: the fill length of the assembly buffer. -/
  rxLen : Nat
  /-- R33 `rx_buf`: the assembly buffer. -/
  rxBuf : Memory
  /-- R34 `rx_ovf`. -/
  rxOvf : Bool
  /-- R35 `last_seq`, one entry per node. -/
  lastSeq : List Byte
  /-- R36 `good`, one entry per node. -/
  good : List Half
  /-- R37 `lost`, one entry per node. -/
  lost : List Half
  /-- R38 `tx_out`, oldest first. -/
  txOut : List TxItem
  /-- R39 `ev_out`, oldest first. -/
  evOut : List Event
  /-- R40 `resp_out`, oldest first. -/
  respOut : List Word
  /-- R41 `fault`, the model's fault mark. -/
  fault : Option Fault
  /-- The host's inputs not yet taken, next first. -/
  pending : List HostInput
  deriving DecidableEq, Repr

/-- Reset with a configuration (70_reset_and_hazards.md R250, R252). The contents of `rx_buf` are unspecified there; this model
clears it (DESIGN CHOICE, assumption log 3, unsafe). -/
def State.resetWith (c : Config) : State where
  cfg := c
  txActive := false
  needBreak := resetNeedBreak
  txCrc := c.crcInit
  escRun := 0
  txSeq := List.replicate c.maxNodes resetTxSeq
  rxBusy := false
  delim := 0
  rxNode := 0
  rxCrc := c.crcInit
  rxLen := 0
  rxBuf := []
  rxOvf := false
  lastSeq := List.replicate c.maxNodes resetLastSeq
  good := List.replicate c.maxNodes 0
  lost := List.replicate c.maxNodes 0
  txOut := []
  evOut := []
  respOut := []
  fault := none
  pending := []

/-- The block right after reset with the reference configuration (DESIGN CHOICE, assumption log 1, safe), no input issued yet. -/
def State.reset : State := State.resetWith referenceConfig

end Sys2Proof.Machine
end

