-- ==== Sys2Proof/Machine/Ops.lean ====
section
/-! DEFINITION. The named operations on the storage and the outputs: spec 00_scope.md R11, R12, 20_memory.md R50 to R52,
60_exceptions.md R221, R230. -/

namespace Sys2Proof.Machine

/-! ### The assembly buffer's storage (20_memory.md R51) -/

/-- What an index that nothing has written reads as. DESIGN CHOICE, assumption log 3, unsafe: the spec says "unspecified, any value". -/
def unwrittenByte : Byte := 0x00

/-- One byte of the buffer. -/
def Memory.read : Memory → Nat → Byte
  | [], _ => unwrittenByte
  | (a, v) :: rest, k => if a = k then v else Memory.read rest k

/-- A cell in front of a memory, unless it holds what an unlisted index reads as. -/
def Memory.cons (k : Nat) (b : Byte) (m : Memory) : Memory :=
  if b = unwrittenByte then m else (k, b) :: m

/-- Writes one byte and keeps the canonical form. -/
def Memory.write : Memory → Nat → Byte → Memory
  | [], k, b => Memory.cons k b []
  | (a, v) :: rest, k, b =>
    if k < a then Memory.cons k b ((a, v) :: rest)
    else if k = a then Memory.cons k b rest
    else (a, v) :: Memory.write rest k b

/-- The `n` bytes from index `start` on: the spec's `rx_buf[start .. start + n - 1]`. -/
def Memory.bytes (m : Memory) : Nat → Nat → List Byte
  | _, 0 => []
  | start, n + 1 => Memory.read m start :: Memory.bytes m (start + 1) n

/-- Every listed index is at least `low`. -/
def Memory.startsAt (low : Nat) : Memory → Bool
  | [] => true
  | (a, _) :: _ => decide (low ≤ a)

/-- The canonical form: indices strictly rising, no entry equal to what an unlisted index reads as. -/
def Memory.wf : Memory → Bool
  | [] => true
  | (a, v) :: rest => decide (v ≠ unwrittenByte) && Memory.startsAt (a + 1) rest && Memory.wf rest

/-- No index at or past `cap` is listed: the buffer has `cap` bytes. -/
def Memory.within (cap : Nat) (m : Memory) : Bool :=
  m.all fun cell => decide (cell.1 < cap)

/-! ### The per-node tables (20_memory.md R52) -/

/-- Reads a node's entry. An index past the table is never presented (10_state.md R46); it reads as zero (DESIGN CHOICE,
assumption log 4, safe). -/
def tableGet {n : Nat} (t : List (BitVec n)) (node : Byte) : BitVec n :=
  t.getD node.toNat 0

/-- Writes a node's entry; past the table, nothing (DESIGN CHOICE, assumption log 4, safe). -/
def tableSet {n : Nat} (t : List (BitVec n)) (node : Byte) (v : BitVec n) : List (BitVec n) :=
  t.set node.toNat v

/-! ### Outputs (00_scope.md R12) -/

/-- `Emit`: appends to `tx_out`, which the host takes at once (20_memory.md R57; DESIGN CHOICE, assumption log 13, unsafe). -/
def emit (item : TxItem) (s : State) : State :=
  { s with txOut := s.txOut ++ [item] }

/-- `Report`: appends an error event to `ev_out`. -/
def report (kind : ErrKind) (info : Half) (s : State) : State :=
  { s with evOut := s.evOut ++ [.error kind info] }

/-- `Deliver`: appends a frame event to `ev_out`. -/
def deliver (node : Byte) (payload : List Byte) (s : State) : State :=
  { s with evOut := s.evOut ++ [.frame node payload] }

/-- `Respond`: appends to `resp_out`. -/
def respond (w : Word) (s : State) : State :=
  { s with respOut := s.respOut ++ [w] }

/-- The numeric code of an error kind (60_exceptions.md R221; DESIGN CHOICE, assumption log 12, safe). -/
def ErrKind.code : ErrKind → Nat
  | .addr => 1
  | .crc => 2
  | .overflow => 3
  | .txOversize => 4

/-! ### Taking an exception -/

/-- `raise Fault(r)` (60_exceptions.md R230): the block's only exception. It saves nothing and transfers no control (R237): the mark
is set, and every other field and all three traces are as they were before the command. What stops the machine then is
`Sys2Proof.Machine.step`. There is no return from it (R238); a host reset clears it (DEDUCED, assumption log 5, unsafe). -/
def raise (r : Fault) (s : State) : State :=
  { s with fault := some r }

end Sys2Proof.Machine
end

