-- ==== Sys2Proof/Machine/Crc.lean ====
section
/-! DEFINITION. The CRC update function and its fold: spec 40_crc.md R100 to R104. -/

namespace Sys2Proof.Machine

/-- One of the eight rounds of the reference instance (R101). -/
def crcRound (crc : Half) : Half :=
  if crc.getLsbD 0 then (crc >>> 1) ^^^ 0xA001 else crc >>> 1

/-- R101 `CrcStep_ref`: reflected CRC-16 with polynomial 0xA001 and no final exclusive-or. -/
def crcStepReference (crc : Half) (b : Byte) : Half :=
  crcRound (crcRound (crcRound (crcRound (crcRound (crcRound (crcRound (crcRound (crc ^^^ b.setWidth 16))))))))

/-- R101 `CrcStep`: the configuration's update function. -/
def crcStep (c : Config) (crc : Half) (b : Byte) : Half :=
  match c.crcAlgorithm with
  | .reference => crcStepReference crc b
  | .other k => crcStepOther k crc b

/-- R103 `CrcFold`: the update function over a byte sequence, from the left. -/
def crcFold (c : Config) : Half → List Byte → Half
  | crc, [] => crc
  | crc, b :: rest => crcFold c (crcStep c crc b) rest

end Sys2Proof.Machine
end

