-- ==== Sys2Proof/Machine/Flags.lean ====
section
/-! DEFINITION. The flags: the delimiter counter, the decoder's state and the opening-break condition
(spec 10_state.md R24, R29, R42, 42_receive.md R161). No flag is an arithmetic condition code (R42). -/

namespace Sys2Proof.Machine

/-- One delimiter more, saturating at 2 (10_state.md R29, 42_receive.md R162, R163). -/
def delimUp (d : Fin 3) : Fin 3 := if d = 0 then 1 else 2

/-- R161: the decoder's state. -/
def decoderState (s : State) : DecoderState :=
  if s.rxBusy then .receiving else if s.delim = 2 then .addressing else .idle

/-- 41_transmit.md R130: TX_BEGIN sends an opening break when the link was mid-transmission, timed out, or this is the first
transmission. -/
def breakDue (s : State) : Bool := s.txActive || s.needBreak

end Sys2Proof.Machine
end

