-- ==== Sys2Proof/Machine/Operands.lean ====
section
/-! DEFINITION. What the commands' operands stand for: node ids, markers, lengths (spec 30_encoding.md R73, R74, R80). -/

namespace Sys2Proof.Machine

/-- A node id is valid iff it is below `MAX_NODES` (00_scope.md R6). -/
def validNode (c : Config) (node : Byte) : Bool := decide (node.toNat < c.maxNodes)

/-- The marker byte of a node: `0xFF - node` (R80). -/
def markerOf (node : Byte) : Byte := 0xFF - node

/-- The node a marker byte names: `0xFF - m` (R80). -/
def nodeOf (marker : Byte) : Byte := 0xFF - marker

/-- A TX_WRITE longer than `MAX_TRANSMIT` is rejected (41_transmit.md R140). -/
def oversized (c : Config) (data : List Byte) : Bool := decide (c.maxTransmit < data.length)

/-- A count as the 16-bit `info` of an error event (60_exceptions.md R221). -/
def infoOfCount (n : Nat) : Half := BitVec.ofNat 16 n

/-- A byte as the 16-bit `info` of an error event, zero-extended. -/
def infoOfByte (b : Byte) : Half := b.setWidth 16

/-- The low byte of a CRC, sent first (20_memory.md R53). -/
def lowByte (crc : Half) : Byte := crc.extractLsb' 0 8

/-- The high byte of a CRC, sent second (20_memory.md R53). -/
def highByte (crc : Half) : Byte := crc.extractLsb' 8 8

/-- A CRC out of its two wire bytes, low byte first (20_memory.md R53, 42_receive.md R172). -/
def crcOfBytes (low high : Byte) : Half := low.setWidth 16 ||| (high.setWidth 16 <<< 8)

end Sys2Proof.Machine
end

