-- ==== Sys2Proof/Machine/Receive.lean ====
section
/-! DEFINITION. The meaning of RX_FEED and its micro-operations `Append` and `Complete`: spec 42_receive.md R160 to R178. -/

namespace Sys2Proof.Machine

/-- R171 `Append`: one unescaped byte into the assembly buffer; the CRC follows two bytes behind. A byte past the capacity is dropped
and sets the overflow flag. -/
def rxAppend (b : Byte) (s : State) : State :=
  if s.rxLen < s.cfg.rxCapacity then
    let buf := Memory.write s.rxBuf s.rxLen b
    { s with
      rxBuf := buf
      rxLen := s.rxLen + 1
      rxCrc := if 2 ≤ s.rxLen then crcStep s.cfg s.rxCrc (Memory.read buf (s.rxLen - 2)) else s.rxCrc }
  else { s with rxOvf := true }

/-- `Append` of the same byte `n` times (R166). -/
def rxAppendRun : Nat → Byte → State → State
  | 0, _, s => s
  | n + 1, b, s => rxAppendRun n b (rxAppend b s)

/-- The received CRC of an assembled frame: its last two bytes (R172). -/
def receivedCrc (s : State) : Half :=
  crcOfBytes (Memory.read s.rxBuf (s.rxLen - 2)) (Memory.read s.rxBuf (s.rxLen - 1))

/-- The sequence numbers skipped before a frame with sequence `q`, modulo 256 (R176). -/
def skipped (last q : Byte) : Byte := q - (last + 1)

/-- An accepted frame: loss accounting and delivery (R176, R177). -/
def rxAccept (s : State) : State :=
  let n := s.rxNode
  let q := Memory.read s.rxBuf 0
  deliver n (Memory.bytes s.rxBuf 1 (s.rxLen - 3))
    { s with
      good := tableSet s.good n (tableGet s.good n + 1)
      lost := tableSet s.lost n (tableGet s.lost n + (skipped (tableGet s.lastSeq n) q).setWidth 16)
      lastSeq := tableSet s.lastSeq n q }

/-- The outcome of a completion, in the order of 60_exceptions.md R235: overflow (R173), short (R175), CRC mismatch (R174),
acceptance. -/
def rxOutcome (s : State) : State :=
  if s.rxOvf then report .overflow (infoOfCount s.rxLen) s
  else if s.rxLen < 3 then s
  else if receivedCrc s ≠ s.rxCrc then report .crc (receivedCrc s) s
  else rxAccept s

/-- R172 `Complete`: the outcome, and then the assembly state reset whatever the outcome was (R178). -/
def rxComplete (s : State) : State :=
  { rxOutcome s with rxLen := 0, rxOvf := false, rxCrc := s.cfg.crcInit }

/-- RX_FEED of a delimiter: R162 outside a frame, R163 inside one. At `delim` 2 in Receiving, which no run reaches, it completes
(DESIGN CHOICE, assumption log 4, safe). -/
def rxDelimiter (s : State) : State :=
  let counted := { s with delim := delimUp s.delim }
  if s.rxBusy && counted.delim == 2 then { rxComplete counted with rxBusy := false } else counted

/-- RX_FEED of a non-delimiter in Addressing (R165): a valid marker opens the assembly, any other is reported. -/
def rxMarker (c : Byte) (s : State) : State :=
  if validNode s.cfg (nodeOf c) then
    { s with
      rxNode := nodeOf c
      rxLen := 0
      rxOvf := false
      rxCrc := crcStep s.cfg s.cfg.crcInit c
      rxBusy := true }
  else report .addr (infoOfByte c) s

/-- RX_FEED of a non-delimiter, before the delimiter counter is cleared: escape length (R166) or literal (R167) in Receiving, marker in
Addressing (R165), ignored in Idle (R164). -/
def rxNonDelimiter (c : Byte) (s : State) : State :=
  if s.rxBusy then
    if s.delim = 1 then rxAppendRun c.toNat 0x00 s else rxAppend c s
  else if s.delim = 2 then rxMarker c s
  else s

/-- RX_FEED (R160). It raises no fault for any byte (R168). -/
def execRxFeed (c : Byte) (s : State) : Host.Outcome State Fault Refusal :=
  if c = 0x00 then .next (rxDelimiter s) else .next { rxNonDelimiter c s with delim := 0 }

end Sys2Proof.Machine
end

