-- ==== Sys2Proof/Machine/Statistics.lean ====
section
/-! DEFINITION. The meaning of RX_STATUS: spec 43_statistics.md R200 to R202. -/

namespace Sys2Proof.Machine

/-- The response word: `good` in bits 31:16, `lost` in bits 15:0 (R201). -/
def statusWord (good lost : Half) : Word := (good.setWidth 32 <<< 16) ||| lost.setWidth 32

/-- RX_STATUS (R201, R202): answers a node's counters and clears them. -/
def execRxStatus (node : Byte) (s : State) : Host.Outcome State Fault Refusal :=
  if validNode s.cfg node then
    .next
      { respond (statusWord (tableGet s.good node) (tableGet s.lost node)) s with
        good := tableSet s.good node 0
        lost := tableSet s.lost node 0 }
  else .next (raise .badNode s)

end Sys2Proof.Machine
end

