-- ==== Sys2Proof/Machine/Escaper.lean ====
section
/-! DEFINITION. The transmit micro-operations `EscPut`, `EscFlush` and `EmitBreak`: spec 41_transmit.md R121 to R123. -/

namespace Sys2Proof.Machine

/-- Two wire bytes in a row: an escape pair or a break. -/
def emitPair (b₁ b₂ : Byte) (s : State) : State := emit (.byte b₂) (emit (.byte b₁) s)

/-- R122 `EscFlush`: sends the pending escape run as one pair, if there is one. -/
def escFlush (s : State) : State :=
  if s.escRun = 0 then s else { emitPair 0x00 s.escRun s with escRun := 0 }

/-- R121, the delimiter branch: counts it, and sends a full chunk at its 255th (greedy chunks: DESIGN CHOICE, assumption log 12, safe). -/
def escDelimiter (s : State) : State :=
  if s.escRun + 1 = 255 then { emitPair 0x00 0xFF s with escRun := 0 } else { s with escRun := s.escRun + 1 }

/-- R121 `EscPut`: the escaping writer for one frame byte. The CRC takes the unescaped byte first. -/
def escPut (b : Byte) (s : State) : State :=
  let stepped := { s with txCrc := crcStep s.cfg s.txCrc b }
  if b = 0x00 then escDelimiter stepped else emit (.byte b) (escFlush stepped)

/-- `EscPut` of each byte, in order. -/
def escPutAll : List Byte → State → State
  | [], s => s
  | b :: rest, s => escPutAll rest (escPut b s)

/-- R123 `EmitBreak`. -/
def emitBreak (s : State) : State := emitPair 0x00 0x00 s

end Sys2Proof.Machine
end

