-- ==== Sys2Proof/Machine/Transmit.lean ====
section
/-! DEFINITION. The meanings of TX_BEGIN, TX_WRITE, TX_END and TX_RESYNC: spec 41_transmit.md R130 to R151. -/

namespace Sys2Proof.Machine

/-- TX_BEGIN, before the frame bytes: `TxStart`, the opening break if one is due, and the transmit group set for a new frame whose
sequence number is used up (R130). -/
def openFrame (node : Byte) (s : State) : State :=
  let started := emit .start s
  let broken := if breakDue s then emitBreak started else started
  { broken with
    needBreak := false
    txCrc := s.cfg.crcInit
    escRun := 0
    txActive := true
    txSeq := tableSet s.txSeq node (tableGet s.txSeq node + 1) }

/-- TX_BEGIN (R130, R131). The node is checked before any output. -/
def execTxBegin (node hdr : Byte) (s : State) : Host.Outcome State Fault Refusal :=
  if validNode s.cfg node then
    .next (escPutAll [markerOf node, tableGet s.txSeq node, hdr] (openFrame node s))
  else .next (raise .badNode s)

/-- TX_WRITE (R138 to R140). A frame must be open, which is checked before the length; an oversized write is reported and has no
other effect. -/
def execTxWrite (data : List Byte) (s : State) : Host.Outcome State Fault Refusal :=
  if s.txActive then
    if oversized s.cfg data then .next (report .txOversize (infoOfCount data.length) s)
    else .next (escPutAll data s)
  else .next (raise .txNotActive s)

/-- TX_END on an open frame (R145): the CRC as it stands, low byte first, through the escaper; the pending run; the closing break;
`TxEnd`. -/
def closeFrame (s : State) : State :=
  let sent := escPutAll [lowByte s.txCrc, highByte s.txCrc] s
  { emit .stop (emitBreak (escFlush sent)) with txActive := false }

/-- TX_END (R145, R146). -/
def execTxEnd (s : State) : Host.Outcome State Fault Refusal :=
  if s.txActive then .next (closeFrame s) else .next (raise .txNotActive s)

/-- TX_RESYNC (R150): the next TX_BEGIN sends an opening break. -/
def execTxResync (s : State) : Host.Outcome State Fault Refusal :=
  .next { s with needBreak := true }

end Sys2Proof.Machine
end

