-- ==== Sys2Proof/Machine/Dispatch.lean ====
section
/-! DEFINITION. One arm per command of the opcode table, each the call of its meaning. -/

namespace Sys2Proof.Machine

-- The effect of one decoded command on the state.
def exec (i : Instr) (s : State) : Host.Outcome State Fault Refusal :=
  match i with
  | .txBegin node hdr => Sys2Proof.Machine.execTxBegin node hdr s
  | .txWrite data => Sys2Proof.Machine.execTxWrite data s
  | .txEnd => Sys2Proof.Machine.execTxEnd s
  | .txResync => Sys2Proof.Machine.execTxResync s
  | .rxFeed c => Sys2Proof.Machine.execRxFeed c s
  | .rxStatus node => Sys2Proof.Machine.execRxStatus node s

end Sys2Proof.Machine
end

