-- ==== Sys2Proof/Machine/Fetch.lean ====
section
/-! DEFINITION. Taking one host input: a command is decoded and run, a reset installs its configuration
(spec 20_memory.md R58, 30_encoding.md R78, 60_exceptions.md R233, 70_reset_and_hazards.md R250 to R254). -/

namespace Sys2Proof.Machine

/-- Decodes a command and runs it; what `decode` rejects raises `IllegalCommand` (60_exceptions.md R233). -/
def runCommand (word : Word) (data : List Byte) (s : State) : Host.Outcome State Fault Refusal :=
  match decode word data with
  | .ok i => exec i s
  | .error _ => .next (raise .illegalCommand s)

/-- Reset with a configuration, the inputs `rest` still to come. Nothing of the state before it is left; an illegal
configuration is refused (DEDUCED, assumption log 5, safe). -/
def applyReset (c : Config) (rest : List HostInput) : Host.Outcome State Fault Refusal :=
  if c.Legal then .next { State.resetWith c with pending := rest } else .refused .illegalConfiguration

/-- The host input that an instruction of the opcode table is: its word and its attached bytes. -/
def tableInput (nbits w : Nat) : HostInput := .command (tableWord nbits w) (tableData nbits w)

/-- An instruction as the host input that carries it. -/
def inputOf (i : Instr) : HostInput := .command (encodeWord i) (encodeData i)

end Sys2Proof.Machine
end

