-- ==== Sys2Proof/Machine/Step.lean ====
section
/-! DEFINITION. One step of the block: it takes the host's next input and runs it to its end (spec 20_memory.md R58). -/

namespace Sys2Proof.Machine

/-- A command runs unless the fault mark is set: then the machine stops under that name (60_exceptions.md R230: no later command
runs). A reset applies at any time (70_reset_and_hazards.md R252; with the mark set: DEDUCED, assumption log 5, unsafe).
With no input the block waits (DESIGN CHOICE, assumption log 6, safe): nothing changes, and a marked
state stops here too, so that it is never a final state. -/
def step (s : State) : Host.Outcome State Fault Refusal :=
  match s.pending, s.fault with
  | .reset c :: rest, _ => applyReset c rest
  | .command _ _ :: _, some r => .fault r
  | .command word data :: rest, none => runCommand word data { s with pending := rest }
  | [], some r => .fault r
  | [], none => .next s

/-- `s` with an instruction of the opcode table as the host's next input, so that the next step takes and runs exactly it. A stopped
machine runs nothing, so the fault mark is cleared (DESIGN CHOICE, assumption log 7, safe). -/
def State.withFetchWord (s : State) (nbits w : Nat) : State :=
  { s with pending := tableInput nbits w :: s.pending, fault := none }

end Sys2Proof.Machine
end

