-- ==== Sys2Proof/Machine/Assembly.lean ====
section
/-! DEFINITION. The pseudo-instructions and the assembly syntax: spec 30_encoding.md R86 to R90. They are the host's notation: no
step of the machine depends on them. -/

namespace Sys2Proof.Machine

/-! ### Pseudo-instructions (R87 to R90) -/

/-- R87 `transmitStartToNode node, hdr`. -/
def transmitStartToNode (node hdr : Byte) : List Instr := [.txBegin node hdr]

/-- R87 `transmitStart hdr`: to `LOCAL_NODE`. -/
def transmitStart (c : Config) (hdr : Byte) : List Instr := [.txBegin c.localNode hdr]

/-- R87 `transmitStartNonBlocking hdr`: as `transmitStart`; it always succeeds here. -/
def transmitStartNonBlocking (c : Config) (hdr : Byte) : List Instr := [.txBegin c.localNode hdr]

/-- R88 `transmitBytes data, length`: one command. -/
def transmitBytes (data : List Byte) : List Instr := [.txWrite data]

/-- R88 `transmitEnd`. -/
def transmitEnd : List Instr := [.txEnd]

/-- R89 `rxStatus node`. -/
def rxStatusOf (node : Byte) : List Instr := [.rxStatus node]

/-- R90 `receiveBytes data, length`: one RX_FEED per byte, in order. -/
def receiveBytes (data : List Byte) : List Instr := data.map .rxFeed

/-! ### Assembly text (R86), as characters -/

/-- A digit's character. -/
def digitChar (n : Nat) : Char :=
  ['0', '1', '2', '3', '4', '5', '6', '7', '8', '9', 'A', 'B', 'C', 'D', 'E', 'F'].getD n '0'

/-- A byte as two hexadecimal digits. -/
def hexPair (b : Byte) : List Char := [digitChar (b.toNat / 16), digitChar (b.toNat % 16)]

/-- A number operand, hexadecimal with its `0x`. -/
def asmNumber (b : Byte) : List Char := '0' :: 'x' :: hexPair b

/-- The bytes of a TX_WRITE, each with the space that ends it. -/
def asmBytes : List Byte → List Char
  | [] => []
  | b :: rest => hexPair b ++ ' ' :: asmBytes rest

/-- R86: one command as one line of assembly. -/
def asmLine : Instr → List Char
  | .txBegin node hdr => "TX_BEGIN ".toList ++ asmNumber node ++ ", ".toList ++ asmNumber hdr
  | .txWrite data => "TX_WRITE [".toList ++ asmBytes data ++ [']']
  | .txEnd => "TX_END".toList
  | .txResync => "TX_RESYNC".toList
  | .rxFeed c => "RX_FEED ".toList ++ asmNumber c
  | .rxStatus node => "RX_STATUS ".toList ++ asmNumber node

/-- The value of a decimal digit. -/
def decDigit (ch : Char) : Option Nat :=
  if '0' ≤ ch ∧ ch ≤ '9' then some (ch.toNat - 48) else none

/-- The value of a hexadecimal digit. -/
def hexDigit (ch : Char) : Option Nat :=
  if '0' ≤ ch ∧ ch ≤ '9' then some (ch.toNat - 48)
  else if 'A' ≤ ch ∧ ch ≤ 'F' then some (ch.toNat - 55)
  else if 'a' ≤ ch ∧ ch ≤ 'f' then some (ch.toNat - 87)
  else none

/-- Digits of a base read from the left, onto a value so far. -/
def digitsFrom (base : Nat) (digit : Char → Option Nat) : Nat → List Char → Option Nat
  | n, [] => some n
  | n, ch :: rest => (digit ch).bind fun d => digitsFrom base digit (n * base + d) rest

/-- A non-empty run of digits as an 8-bit number. -/
def byteOfDigits (base : Nat) (digit : Char → Option Nat) (cs : List Char) : Option Byte :=
  if cs = [] then none
  else (digitsFrom base digit 0 cs).bind fun n => if n < 256 then some (BitVec.ofNat 8 n) else none

/-- A number operand: decimal, or hexadecimal after `0x`. -/
def parseNumber : List Char → Option Byte
  | '0' :: 'x' :: cs => byteOfDigits 16 hexDigit cs
  | cs => byteOfDigits 10 decDigit cs

/-- A byte between the brackets of a TX_WRITE: two hexadecimal digits without a prefix. -/
def parseHexPair : List Char → Option Byte
  | [a, b] => byteOfDigits 16 hexDigit [a, b]
  | _ => none

/-- Drops a comment: what stands from the first `;` on. -/
def dropComment : List Char → List Char
  | [] => []
  | ch :: rest => if ch = ';' then [] else ch :: dropComment rest

/-- The words of a line, onto the word being read: spaces end a word, and a comma, a bracket is a word of its own. -/
def wordsFrom : List Char → List Char → List (List Char)
  | word, [] => if word = [] then [] else [word]
  | word, ch :: rest =>
    let done := if word = [] then [] else [word]
    if ch = ' ' then done ++ wordsFrom [] rest
    else if ch = ',' ∨ ch = '[' ∨ ch = ']' then done ++ [ch] :: wordsFrom [] rest
    else wordsFrom (word ++ [ch]) rest

/-- The bytes up to the closing bracket, which ends the line. -/
def parseBytes : List (List Char) → Option (List Byte)
  | [] => none
  | [last] => if last = [']'] then some [] else none
  | word :: rest => (parseHexPair word).bind fun b => (parseBytes rest).map (b :: ·)

/-- R86: the command a line of assembly stands for (read strictly: DESIGN CHOICE, assumption log 10, safe). -/
def parseLine (line : List Char) : Option Instr :=
  match wordsFrom [] (dropComment line) with
  | [op] => if op = "TX_END".toList then some .txEnd else if op = "TX_RESYNC".toList then some .txResync else none
  | [op, x] =>
    if op = "RX_FEED".toList then (parseNumber x).map .rxFeed
    else if op = "RX_STATUS".toList then (parseNumber x).map .rxStatus
    else none
  | op :: x :: rest =>
    if op = "TX_WRITE".toList ∧ x = ['['] then (parseBytes rest).map .txWrite
    else if op = "TX_BEGIN".toList then
      match rest with
      | [comma, y] =>
        if comma = [','] then (parseNumber x).bind fun node => (parseNumber y).map fun hdr => .txBegin node hdr else none
      | _ => none
    else none
  | [] => none

end Sys2Proof.Machine
end

