-- ==== Sys2Proof/Machine/Wire.lean ====
section
/-! DEFINITION. The wire format as the spec states it, without the machine: frames, escaping by runs, breaks
(spec 30_encoding.md R79 to R84, 41_transmit.md R156). The transmit and receive paths are claimed to agree with these. -/

namespace Sys2Proof.Machine

/-- R81: the escape pairs of a run of `r` delimiters, full chunks of 255 first, then the remainder if there is one. -/
def runPairs (r : Nat) : List Byte :=
  (List.replicate (r / 255) [0x00, 0xFF]).flatten ++ if r % 255 = 0 then [] else [0x00, BitVec.ofNat 8 (r % 255)]

/-- R81: the wire bytes of frame bytes that follow `r` delimiters of a run still open. -/
def escapeAfter : Nat → List Byte → List Byte
  | r, [] => runPairs r
  | r, b :: rest => if b = 0x00 then escapeAfter (r + 1) rest else runPairs r ++ b :: escapeAfter 0 rest

/-- R81: the wire bytes of a sequence of frame bytes. -/
def escape (frame : List Byte) : List Byte := escapeAfter 0 frame

/-- The length of the run of delimiters that `r` delimiters and then `frame` end in. -/
def openRun : Nat → List Byte → Nat
  | r, [] => r
  | r, b :: rest => if b = 0x00 then openRun (r + 1) rest else openRun 0 rest

/-- The lengths of the maximal runs of delimiters, where `r` delimiters come before (R156). A run of no delimiters counts as none. -/
def runLengths : Nat → List Byte → List Nat
  | r, [] => if r = 0 then [] else [r]
  | r, b :: rest =>
    if b = 0x00 then runLengths (r + 1) rest else (if r = 0 then [] else [r]) ++ runLengths 0 rest

/-- The number of literals: frame bytes that are no delimiter (R156). -/
def literalCount (frame : List Byte) : Nat := (frame.filter fun b => b ≠ 0x00).length

/-- The chunks of at most 255 delimiters that runs take: `ceil(r / 255)` each (R156). -/
def chunkCount (runs : List Nat) : Nat := (runs.map fun r => (r + 254) / 255).sum

/-- R82: a break. -/
def breakBytes : List Byte := [0x00, 0x00]

/-- A CRC as its two frame bytes, low byte first (R79, 20_memory.md R53). -/
def crcBytes (crc : Half) : List Byte := [lowByte crc, highByte crc]

/-- R79: the frame bytes up to the CRC. -/
def frameBody (node seq hdr : Byte) (payload : List Byte) : List Byte := markerOf node :: seq :: hdr :: payload

/-- R79: all frame bytes. The CRC is over the bytes before it (40_crc.md R105). -/
def frameBytes (c : Config) (node seq hdr : Byte) (payload : List Byte) : List Byte :=
  frameBody node seq hdr payload ++ crcBytes (crcFold c c.crcInit (frameBody node seq hdr payload))

/-- R83: an encoded frame on the wire. -/
def wireFrame (c : Config) (opening : Bool) (node seq hdr : Byte) (payload : List Byte) : List Byte :=
  (if opening then breakBytes else []) ++ escape (frameBytes c node seq hdr payload) ++ breakBytes

/-- The bytes among transport items, in order. -/
def wireBytes : List TxItem → List Byte
  | [] => []
  | .byte b :: rest => b :: wireBytes rest
  | .start :: rest => wireBytes rest
  | .stop :: rest => wireBytes rest

end Sys2Proof.Machine
end

