-- ==== Sys2Proof/Safety.lean ====
section
/-! DEFINITION. What counts as a sound state and as a safe run, in the terms the claims use
(spec 10_state.md R43, 60_exceptions.md R230). -/

namespace Sys2Proof.Machine

/-- The seven invariants of 10_state.md R43, in its order. -/
abbrev State.RuleInvariants (s : State) : Prop :=
  s.escRun.toNat ≤ 254 ∧
  (s.txActive = false → s.escRun = 0) ∧
  (s.rxBusy = true → s.delim ≠ 2) ∧
  s.rxLen ≤ s.cfg.rxCapacity ∧
  (s.rxOvf = true → s.rxLen = s.cfg.rxCapacity) ∧
  (s.rxBusy = false → s.rxLen = 0 ∧ s.rxOvf = false) ∧
  (s.rxBusy = true → s.rxNode.toNat < s.cfg.maxNodes)

/-- The storage has the shape its rules give it: one entry per node in every table (10_state.md R27, R35 to R37), and an assembly
buffer of `RX_CAPACITY` bytes in canonical form (R33). -/
abbrev State.StorageShape (s : State) : Prop :=
  s.txSeq.length = s.cfg.maxNodes ∧
  s.lastSeq.length = s.cfg.maxNodes ∧
  s.good.length = s.cfg.maxNodes ∧
  s.lost.length = s.cfg.maxNodes ∧
  Memory.wf s.rxBuf = true ∧
  Memory.within s.cfg.rxCapacity s.rxBuf = true

/-- A sound state: a legal configuration (00_scope.md R7), the invariants of R43 and storage of its shape. -/
abbrev State.Inv (s : State) : Prop :=
  s.cfg.Legal ∧ s.RuleInvariants ∧ s.StorageShape

/-- 40_crc.md R108: while Receiving, the receive accumulator is the CRC over the marker and all assembled bytes but the last two. -/
abbrev State.RxCrcInv (s : State) : Prop :=
  s.rxBusy = true →
    s.rxCrc = crcFold s.cfg s.cfg.crcInit (markerOf s.rxNode :: Memory.bytes s.rxBuf 0 (s.rxLen - 2))

/-- Runs commands in order. A command that raises a fault ends the run there: no later command runs (60_exceptions.md R230). -/
def execAll : List Instr → State → Host.Outcome State Fault Refusal
  | [], s => .next s
  | i :: rest, s =>
    match exec i s with
    | .next t =>
      match t.fault with
      | none => execAll rest t
      | some r => .fault r
    | .fault r => .fault r
    | .refused r => .refused r

/-- Feeds wire bytes to the decoder, one RX_FEED each (30_encoding.md R90). -/
def feedAll (bytes : List Byte) (s : State) : Host.Outcome State Fault Refusal :=
  execAll (receiveBytes bytes) s

/-- The transmit path's part of the state (10_state.md R23 to R27, R38), with the configuration. -/
def State.transmitPart (s : State) : Config × Bool × Bool × Half × Byte × List Byte × List TxItem :=
  (s.cfg, s.txActive, s.needBreak, s.txCrc, s.escRun, s.txSeq, s.txOut)

/-- The receive path's part of the state (10_state.md R28 to R37, R40), with the configuration. -/
def State.receivePart (s : State) :
    Config × Bool × Fin 3 × Byte × Half × Nat × Memory × Bool × List Byte × List Half × List Half × List Word :=
  (s.cfg, s.rxBusy, s.delim, s.rxNode, s.rxCrc, s.rxLen, s.rxBuf, s.rxOvf, s.lastSeq, s.good, s.lost, s.respOut)

/-- Is this one of the transmit path's commands (41_transmit.md)? The others are the receive path's. -/
def isTransmit : Instr → Bool
  | .txBegin _ _ => true
  | .txWrite _ => true
  | .txEnd => true
  | .txResync => true
  | .rxFeed _ => false
  | .rxStatus _ => false

/-- Two states that differ at most in the assembly buffer, and there only at or past the fill length (10_state.md R33). -/
abbrev SameBelowFill (s t : State) : Prop :=
  t = { s with rxBuf := t.rxBuf } ∧ Memory.bytes s.rxBuf 0 s.rxLen = Memory.bytes t.rxBuf 0 s.rxLen ∧
    Memory.wf s.rxBuf = true ∧ Memory.wf t.rxBuf = true

/-- The words of the opcode map (30_encoding.md R72): every bit a format fixes has the value the map gives it. -/
abbrev LegalWord (w : Word) : Prop :=
  w &&& 0xFF0000FF#32 = 0x10000000#32 ∨ w &&& 0xFFFF0000#32 = 0x20000000#32 ∨ w = 0x30000000#32 ∨
  w = 0x40000000#32 ∨ w &&& 0xFFFFFF00#32 = 0x50000000#32 ∨ w &&& 0xFF00FFFF#32 = 0x60000000#32

end Sys2Proof.Machine
end

