-- ==== Sys2Proof/Certificates/Slice0/Obligations.lean ====
section
/-! DEFINITION. The statements for the provers, one per definition, each with the rules of the spec it formalises. -/

open Sys2Proof Sys2Proof.Machine

/-! ### Encoding (30_encoding.md) -/

/-- Every well-formed instruction, with every operand, is read back from its own word and attached bytes (R71, R73, R74, R78). -/
def Obligations.DecodeOfEncode : Prop :=
  ∀ i : Instr, i.wellFormed = true → decode (encodeWord i) (encodeData i) = .ok i

/-- A pair that decodes is the encoding of what it decodes to: no two words stand for one command, no bit of a word is ignored. -/
def Obligations.EncodeOfDecode : Prop :=
  ∀ (w : Word) (data : List Byte) (i : Instr), decode w data = .ok i → i.wellFormed = true ∧ encode i = (w, data)

/-- Words written out from R71 and R72 decode to the commands they stand for. -/
def Obligations.SpecWordsDecode : Prop :=
  decode 0x10011000#32 [] = .ok (.txBegin 1 0x10) ∧
  decode 0x10003F00#32 [] = .ok (.txBegin 0 0x3F) ∧
  decode 0x20000003#32 [0x01, 0x02, 0x03] = .ok (.txWrite [0x01, 0x02, 0x03]) ∧
  decode 0x30000000#32 [] = .ok .txEnd ∧
  decode 0x40000000#32 [] = .ok .txResync ∧
  decode 0x500000FD#32 [] = .ok (.rxFeed 0xFD) ∧
  decode 0x60020000#32 [] = .ok (.rxStatus 2) ∧
  decode 0x00000000#32 [] = .error .reservedOpcode

/-- The decoder accepts exactly the words of the opcode map, each with exactly the attached bytes its format takes: `LEN` bytes for
format W, none for every other (R72, R74, R75, R78). -/
def Obligations.DecodeAcceptsExactlyTheOpcodeMap : Prop :=
  ∀ (w : Word) (data : List Byte),
    (∃ i, decode w data = .ok i) ↔
      LegalWord w ∧
        data.length = if w &&& 0xF0000000#32 = 0x20000000#32 then (w &&& 0x0000FFFF#32).toNat else 0

/-- R75, R233: a word outside the opcode map, or a pair whose attached list is not the one its format takes, raises `IllegalCommand`.
The step takes the command, sets the mark and changes nothing else, and no later command runs. The all-zero word is such a word. -/
def Obligations.IllegalCommandStops : Prop :=
  (∀ (s : State) (w : Word) (data : List Byte) (rest : List HostInput),
    s.fault = none → s.pending = .command w data :: rest →
    (¬ LegalWord w ∨
      data.length ≠ if w &&& 0xF0000000#32 = 0x20000000#32 then (w &&& 0x0000FFFF#32).toNat else 0) →
    step s = .next { s with pending := rest, fault := some .illegalCommand } ∧
      ((∀ c more, rest ≠ .reset c :: more) →
        step { s with pending := rest, fault := some .illegalCommand } = .fault .illegalCommand)) ∧
  ¬ LegalWord 0x00000000#32

/-- R86: the assembler reads back every line it writes. -/
def Obligations.AssemblyReadsBack : Prop :=
  ∀ i : Instr, parseLine (asmLine i) = some i

/-! ### The step, reset and faults (20_memory.md, 60_exceptions.md, 70_reset_and_hazards.md) -/

/-- When the next input is a pair that decodes to `i` and no fault is set, the step takes it off the inputs and is `exec` of `i`. -/
def Obligations.StepRunsDecodedCommand : Prop :=
  ∀ (s : State) (w : Word) (data : List Byte) (rest : List HostInput) (i : Instr),
    s.fault = none → s.pending = .command w data :: rest → decode w data = .ok i →
    step s = exec i { s with pending := rest }

/-- R230: once the fault mark is set, no command runs, and the state is no final state: the step stops under the mark's name. -/
def Obligations.MarkedStateStops : Prop :=
  ∀ (s : State) (r : Fault), s.fault = some r → (∀ c rest, s.pending ≠ .reset c :: rest) → step s = .fault r

/-- With no input and no fault mark, the step changes nothing (the model's choice, assumption log 6). -/
def Obligations.BlockWaitsForInput : Prop :=
  ∀ s : State, s.fault = none → s.pending = [] → step s = .next s

/-- R250: a reset leaves every field at its reset value under the configuration it installs. Of the assembly buffer's contents, which
R250 leaves unspecified, nothing is said. -/
def Obligations.ResetLeavesTheResetValues : Prop :=
  ∀ (s : State) (c : Config) (rest : List HostInput), c.Legal → s.fault = none → s.pending = .reset c :: rest →
    ∃ t, step s = .next t ∧ t.pending = rest ∧ t.cfg = c ∧
      t.txActive = false ∧ t.needBreak = true ∧ t.txCrc = c.crcInit ∧ t.escRun = 0 ∧
      t.txSeq = List.replicate c.maxNodes 0x00 ∧
      t.rxBusy = false ∧ t.delim = 0 ∧ decoderState t = .idle ∧ t.rxNode = 0 ∧ t.rxCrc = c.crcInit ∧ t.rxLen = 0 ∧
      t.rxOvf = false ∧ t.lastSeq = List.replicate c.maxNodes 0xFF ∧
      t.good = List.replicate c.maxNodes 0 ∧ t.lost = List.replicate c.maxNodes 0 ∧
      t.txOut = [] ∧ t.evOut = [] ∧ t.respOut = [] ∧ t.fault = none

/-- R252, and the model's choices of assumption logs 3 and 5: a reset has the same effect whatever the state before it, a set fault mark
included, and leaves the assembly buffer cleared. -/
def Obligations.ResetForgetsTheState : Prop :=
  ∀ (s₁ s₂ : State) (c : Config) (rest : List HostInput), c.Legal →
    s₁.pending = .reset c :: rest → s₂.pending = .reset c :: rest →
    ∃ t, step s₁ = .next t ∧ step s₂ = .next t ∧ t.fault = none ∧ ∀ k, Memory.read t.rxBuf k = 0x00

/-- A reset with a configuration outside R7 is refused (assumption log 5). -/
def Obligations.ResetNeedsLegalConfiguration : Prop :=
  ∀ (s : State) (c : Config) (rest : List HostInput), ¬ c.Legal → s.pending = .reset c :: rest →
    step s = .refused .illegalConfiguration

/-- The state after a reset with any legal configuration is sound, the reset state of the interface among them. -/
def Obligations.ResetStateIsSound : Prop :=
  (∀ c : Config, c.Legal → (State.resetWith c).Inv ∧ (State.resetWith c).RxCrcInv) ∧ State.reset.Inv

/-- Every step from a sound state leads to a sound state: R7, the seven invariants of R43, and storage of its shape. -/
def Obligations.StepKeepsSoundState : Prop :=
  ∀ s t : State, s.Inv → step s = .next t → t.Inv

/-- R108: every step keeps the receive accumulator equal to the CRC over the marker and the assembled bytes but the last two. -/
def Obligations.StepKeepsReceiveCrc : Prop :=
  ∀ s t : State, s.RxCrcInv → step s = .next t → t.RxCrcInv

/-- R6, R58: every command answers a next state, and none changes the configuration or touches the inputs still to come. -/
def Obligations.CommandsRunAndKeepConfiguration : Prop :=
  ∀ (i : Instr) (s : State), ∃ t, exec i s = .next t ∧ t.cfg = s.cfg ∧ t.pending = s.pending

/-- R230 to R232: a command raises a fault for its causes only, and then it has changed nothing but the mark. -/
def Obligations.FaultsHaveTheirCauses : Prop :=
  ∀ (i : Instr) (s t : State) (r : Fault), s.fault = none → exec i s = .next t → t.fault = some r →
    t = { s with fault := some r } ∧
      ((r = .badNode ∧
          ((∃ node hdr, i = .txBegin node hdr ∧ s.cfg.maxNodes ≤ node.toNat) ∨
            ∃ node, i = .rxStatus node ∧ s.cfg.maxNodes ≤ node.toNat)) ∨
        (r = .txNotActive ∧ s.txActive = false ∧ (i = .txEnd ∨ ∃ data, i = .txWrite data)))

/-- R231: TX_BEGIN and RX_STATUS of a node past the last raise `BadNode`; node 255 would make the marker a delimiter. -/
def Obligations.BadNodeRaisesItsFault : Prop :=
  (∀ (s : State) (node hdr : Byte), s.cfg.maxNodes ≤ node.toNat →
    exec (.txBegin node hdr) s = .next { s with fault := some .badNode } ∧
    exec (.rxStatus node) s = .next { s with fault := some .badNode }) ∧
  markerOf 255 = 0x00

/-- R232: TX_WRITE, of any length, and TX_END raise `TxNotActive` while no frame is open. -/
def Obligations.NoOpenFrameRaisesItsFault : Prop :=
  ∀ (s : State) (data : List Byte), s.txActive = false →
    exec (.txWrite data) s = .next { s with fault := some .txNotActive } ∧
    exec .txEnd s = .next { s with fault := some .txNotActive }

/-- R38 to R40, R61: a command only appends to the three output traces. -/
def Obligations.TracesOnlyGrow : Prop :=
  ∀ (i : Instr) (s t : State), exec i s = .next t →
    s.txOut <+: t.txOut ∧ s.evOut <+: t.evOut ∧ s.respOut <+: t.respOut

/-- R45: no transmit command writes a receive field or lets one show in what it does, and the other way round. The clauses: what it
leaves alone; and, from two states that agree on a path's own part, a command of that path leads to states that agree on it, with
the same events appended and the same fault mark. -/
def Obligations.PathsAreDisjoint : Prop :=
  (∀ (i : Instr) (s t : State), exec i s = .next t →
    (isTransmit i = true → t.receivePart = s.receivePart) ∧
    (isTransmit i = false → t.transmitPart = s.transmitPart)) ∧
  (∀ (i : Instr) (s₁ s₂ t₁ t₂ : State), exec i s₁ = .next t₁ → exec i s₂ = .next t₂ → s₁.fault = s₂.fault →
    (isTransmit i = true → s₁.transmitPart = s₂.transmitPart →
      t₁.transmitPart = t₂.transmitPart ∧ t₁.fault = t₂.fault ∧
        ∃ events, t₁.evOut = s₁.evOut ++ events ∧ t₂.evOut = s₂.evOut ++ events) ∧
    (isTransmit i = false → s₁.receivePart = s₂.receivePart →
      t₁.receivePart = t₂.receivePart ∧ t₁.fault = t₂.fault ∧
        ∃ events, t₁.evOut = s₁.evOut ++ events ∧ t₂.evOut = s₂.evOut ++ events))

/-- R33: what the assembly buffer holds at or past the fill length is never observable. Two states that differ there only are led by
every command to states that differ there only, with equal outputs and equal everything else. -/
def Obligations.BufferPastFillIsUnobservable : Prop :=
  ∀ (i : Instr) (s₁ s₂ t₁ t₂ : State), SameBelowFill s₁ s₂ →
    exec i s₁ = .next t₁ → exec i s₂ = .next t₂ → SameBelowFill t₁ t₂

/-! ### The transmit path (41_transmit.md) -/

/-- R131: what TX_BEGIN leaves, for every node and header. The frame bytes are the marker, the sequence and the header, escaped: a zero
sequence or header waits in the run. -/
def Obligations.TxBeginOpensFrame : Prop :=
  ∀ (s : State) (node hdr : Byte), s.cfg.Legal →
    (node.toNat < s.cfg.maxNodes →
      exec (.txBegin node hdr) s = .next
        { s with
          txActive := true
          needBreak := false
          txCrc := crcFold s.cfg s.cfg.crcInit [0xFF - node, tableGet s.txSeq node, hdr]
          escRun := if hdr ≠ 0 then 0 else if tableGet s.txSeq node = 0 then 2 else 1
          txSeq := tableSet s.txSeq node (tableGet s.txSeq node + 1)
          txOut := s.txOut ++ .start ::
            ((if s.txActive = true ∨ s.needBreak = true then [0x00, 0x00] else []) ++ [0xFF - node] ++
              (if tableGet s.txSeq node = 0 then [] else [tableGet s.txSeq node]) ++
              (if hdr = 0 then [] else if tableGet s.txSeq node = 0 then [0x00, 0x01, hdr] else [hdr])).map .byte }) ∧
    (s.cfg.maxNodes ≤ node.toNat → exec (.txBegin node hdr) s = .next { s with fault := some .badNode })

/-- R27: TX_BEGIN to a node adds one modulo 256 to that node's sequence counter and leaves the others; no other command changes one. -/
def Obligations.SequenceCountersAdvance : Prop :=
  (∀ (s t : State) (node hdr : Byte), s.Inv → node.toNat < s.cfg.maxNodes → exec (.txBegin node hdr) s = .next t →
    (tableGet t.txSeq node).toNat = ((tableGet s.txSeq node).toNat + 1) % 256 ∧
    ∀ other, other ≠ node → tableGet t.txSeq other = tableGet s.txSeq other) ∧
  (∀ (i : Instr) (s t : State), (∀ node hdr, i ≠ .txBegin node hdr) → exec i s = .next t → t.txSeq = s.txSeq)

/-- R139, and R138 in its three branches: what TX_WRITE leaves, for every list. On an open frame what it sends and the run it leaves
pending are together the escaped bytes of the pending run and the list (R81); the run pending is the trailing run less the full
chunks sent. -/
def Obligations.TxWriteSendsEscapedBytes : Prop :=
  ∀ (s : State) (data : List Byte), s.escRun.toNat ≤ 254 →
    (s.txActive = true → data.length ≤ s.cfg.maxTransmit →
      ∃ sent : List Byte,
        sent ++ runPairs (openRun s.escRun.toNat data % 255) = escapeAfter s.escRun.toNat data ∧
        exec (.txWrite data) s = .next
          { s with
            txCrc := crcFold s.cfg s.txCrc data
            escRun := BitVec.ofNat 8 (openRun s.escRun.toNat data % 255)
            txOut := s.txOut ++ sent.map .byte }) ∧
    (s.txActive = true → s.cfg.maxTransmit < data.length →
      exec (.txWrite data) s = .next
        { s with evOut := s.evOut ++ [.error .txOversize (BitVec.ofNat 16 data.length)] }) ∧
    (s.txActive = false → exec (.txWrite data) s = .next { s with fault := some .txNotActive })

/-- R140: an oversized write is reported and changes nothing else; the frame stays open, and any writes and ends after it do to the
transmit path what they would have done without it; a write of exactly `MAX_TRANSMIT` bytes is accepted. -/
def Obligations.OversizedWriteIsOnlyReported : Prop :=
  (∀ (s : State) (data : List Byte), s.txActive = true → s.cfg.maxTransmit < data.length →
    ∃ t, exec (.txWrite data) s = .next t ∧
      t = { s with evOut := s.evOut ++ [.error .txOversize (BitVec.ofNat 16 data.length)] } ∧
      ∀ (later : List Instr) (v : State), (∀ i ∈ later, i = .txEnd ∨ ∃ more, i = .txWrite more) →
        execAll later s = .next v → ∃ u, execAll later t = .next u ∧ u.transmitPart = v.transmitPart) ∧
  (∀ (s : State) (data : List Byte), s.txActive = true → data.length = s.cfg.maxTransmit →
    ∃ t, exec (.txWrite data) s = .next t ∧ t.evOut = s.evOut ∧ t.txCrc = crcFold s.cfg s.txCrc data)

/-- R125: a payload split over two writes has the effect of one write of the whole. -/
def Obligations.SplitWriteIsOneWrite : Prop :=
  ∀ (s : State) (xs ys : List Byte), s.txActive = true → (xs ++ ys).length ≤ s.cfg.maxTransmit →
    ∃ t u, exec (.txWrite xs) s = .next t ∧ exec (.txWrite ys) t = .next u ∧ exec (.txWrite (xs ++ ys)) s = .next u

/-- R145: the word of TX_END, and what TX_END leaves: on an open frame the CRC low byte first and the pending run through the escaper,
the closing break and `TxEnd`; otherwise the fault. -/
def Obligations.TxEndClosesFrame : Prop :=
  decode 0x30000000#32 [] = .ok .txEnd ∧
  (∀ s : State, s.escRun.toNat ≤ 254 → s.txActive = true →
    exec .txEnd s = .next
      { s with
        txActive := false
        escRun := 0
        txCrc := crcFold s.cfg s.txCrc [s.txCrc.extractLsb' 0 8, s.txCrc.extractLsb' 8 8]
        txOut := s.txOut ++
          (escapeAfter s.escRun.toNat [s.txCrc.extractLsb' 0 8, s.txCrc.extractLsb' 8 8] ++ [0x00, 0x00]).map .byte ++
          [.stop] }) ∧
  (∀ s : State, s.txActive = false → exec .txEnd s = .next { s with fault := some .txNotActive })

/-- R150: the word of TX_RESYNC, and that it sets `need_break` and does nothing else, in a frame or outside one. A TX_BEGIN after it
sends an opening break; with a frame open it would have sent one without it. -/
def Obligations.TxResyncAsksForBreak : Prop :=
  decode 0x40000000#32 [] = .ok .txResync ∧
  (∀ s : State, exec .txResync s = .next { s with needBreak := true }) ∧
  ∀ (s : State) (node hdr : Byte), node.toNat < s.cfg.maxNodes →
    (∃ t u, exec .txResync s = .next t ∧ exec (.txBegin node hdr) t = .next u ∧
      s.txOut ++ [.start, .byte 0x00, .byte 0x00] <+: u.txOut) ∧
    (s.txActive = true → ∃ u, exec (.txBegin node hdr) s = .next u ∧
      s.txOut ++ [.start, .byte 0x00, .byte 0x00] <+: u.txOut)

/-- R79, R81, R83, R105: the whole frame a begin, any writes and an end send, from any state: between `TxStart` and `TxEnd` stand an
opening break if one was due, the escaped marker, sequence, header, payload and CRC, and the closing break. -/
def Obligations.FrameOnTheWire : Prop :=
  ∀ (s : State) (node hdr : Byte) (writes : List (List Byte)),
    s.cfg.Legal → s.fault = none → node.toNat < s.cfg.maxNodes → (∀ data ∈ writes, data.length ≤ s.cfg.maxTransmit) →
    ∃ t, execAll (.txBegin node hdr :: (writes.map .txWrite ++ [.txEnd])) s = .next t ∧
      t.txOut = s.txOut ++ .start ::
        ((wireFrame s.cfg (s.txActive || s.needBreak) node (tableGet s.txSeq node) hdr writes.flatten).map .byte ++ [.stop]) ∧
      t.txActive = false ∧ t.needBreak = false ∧ t.escRun = 0 ∧ t.evOut = s.evOut

/-- R84: in escaped bytes every delimiter is the first byte of an escape pair and the byte after it is no delimiter, so no break stands
in them, and they end in no single delimiter. -/
def Obligations.EscapedBytesHoldNoBreak : Prop :=
  ∀ frame before after : List Byte, escape frame = before ++ 0x00 :: after → ∃ k rest, after = k :: rest ∧ k ≠ 0x00

/-- R156: the wire length of one complete frame. -/
def Obligations.FrameWireLength : Prop :=
  ∀ (s : State) (node hdr : Byte) (writes : List (List Byte)),
    s.cfg.Legal → s.fault = none → node.toNat < s.cfg.maxNodes → (∀ data ∈ writes, data.length ≤ s.cfg.maxTransmit) →
    ∃ t, execAll (.txBegin node hdr :: (writes.map .txWrite ++ [.txEnd])) s = .next t ∧
      (wireBytes t.txOut).length = (wireBytes s.txOut).length +
        (2 * (if s.txActive = true ∨ s.needBreak = true then 1 else 0) +
          literalCount (frameBytes s.cfg node (tableGet s.txSeq node) hdr writes.flatten) +
          2 * chunkCount (runLengths 0 (frameBytes s.cfg node (tableGet s.txSeq node) hdr writes.flatten)) + 2)

/-! ### The CRC (40_crc.md) -/

/-- R111: for the reference instance, a sequence followed by its own CRC, low byte first, folds to zero. -/
def Obligations.ReferenceCrcResidueIsZero : Prop :=
  ∀ (c : Config) (xs : List Byte), c.crcAlgorithm = .reference →
    crcFold c c.crcInit (xs ++ [(crcFold c c.crcInit xs).extractLsb' 0 8, (crcFold c c.crcInit xs).extractLsb' 8 8]) = 0x0000

/-- R112 for the reference instance: an encoded frame (marker, body, its CRC) in which one literal other than the marker is changed to
another non-zero value reports a CRC error and delivers no frame. The change of the frame byte is the change of that one wire byte
(first clause). -/
def Obligations.ChangedLiteralIsCaught : Prop :=
  ∀ (s : State) (node : Byte) (body before after : List Byte) (b b' : Byte),
    s.Inv → s.fault = none → s.cfg.crcAlgorithm = .reference → decoderState s = .addressing →
    node.toNat < s.cfg.maxNodes → 1 ≤ body.length → body.length + 2 ≤ s.cfg.rxCapacity →
    body ++ crcBytes (crcFold s.cfg s.cfg.crcInit (markerOf node :: body)) = before ++ b :: after →
    b ≠ 0x00 → b' ≠ 0x00 → b' ≠ b →
    (∃ x y, escape (markerOf node :: (before ++ b :: after)) = x ++ b :: y ∧
      escape (markerOf node :: (before ++ b' :: after)) = x ++ b' :: y) ∧
    ∃ t info, feedAll (escape (markerOf node :: (before ++ b' :: after)) ++ breakBytes) s = .next t ∧
      t.evOut = s.evOut ++ [.error .crc info]

/-! ### The receive path (42_receive.md) -/

/-- R162: a delimiter outside a frame raises the counter by one, saturating at two, and does nothing else. -/
def Obligations.DelimiterOutsideFrame : Prop :=
  ∀ s : State, s.rxBusy = false →
    (s.delim = 0 → exec (.rxFeed 0x00) s = .next { s with delim := 1 }) ∧
    (s.delim = 1 → exec (.rxFeed 0x00) s = .next { s with delim := 2 }) ∧
    (s.delim = 2 → exec (.rxFeed 0x00) s = .next { s with delim := 2 })

/-- R163, R173, R175, R178, R235: a delimiter inside a frame. The first one waits. The second ends the frame: its outcome is, in this
order, an overflow report, nothing for fewer than three bytes, a CRC report, or acceptance; then the assembly state is reset, the
decoder is in Addressing, and the buffer, the node and the transmit path are as they were. -/
def Obligations.DelimiterInsideFrame : Prop :=
  ∀ s : State, s.Inv → s.rxBusy = true →
    (s.delim = 0 → exec (.rxFeed 0x00) s = .next { s with delim := 1 }) ∧
    (s.delim = 1 → ∃ t, exec (.rxFeed 0x00) s = .next t ∧ decoderState t = .addressing ∧
      t = { s with
        delim := 2, rxBusy := false, rxLen := 0, rxOvf := false, rxCrc := s.cfg.crcInit
        evOut := t.evOut, good := t.good, lost := t.lost, lastSeq := t.lastSeq } ∧
      (if s.rxOvf = true then
        t.evOut = s.evOut ++ [.error .overflow (BitVec.ofNat 16 s.cfg.rxCapacity)] ∧
          t.good = s.good ∧ t.lost = s.lost ∧ t.lastSeq = s.lastSeq
      else if s.rxLen < 3 then
        t.evOut = s.evOut ∧ t.good = s.good ∧ t.lost = s.lost ∧ t.lastSeq = s.lastSeq
      else if Memory.read s.rxBuf (s.rxLen - 1) ++ Memory.read s.rxBuf (s.rxLen - 2) ≠ s.rxCrc then
        t.evOut = s.evOut ++
            [.error .crc (Memory.read s.rxBuf (s.rxLen - 1) ++ Memory.read s.rxBuf (s.rxLen - 2))] ∧
          t.good = s.good ∧ t.lost = s.lost ∧ t.lastSeq = s.lastSeq
      else
        t.evOut = s.evOut ++ [.frame s.rxNode (Memory.bytes s.rxBuf 1 (s.rxLen - 3))]))

/-- R176, R177: an accepted frame. The node's good count goes up by one and its lost count by the skipped sequence numbers, both modulo
2^16; its last sequence is the frame's; every other node's entries stand; the frame is delivered without sequence and CRC. The
sequence expected next skips none, a repeated one 255, one behind 254. -/
def Obligations.AcceptedFrameIsCounted : Prop :=
  ∀ s : State, s.Inv → s.rxBusy = true → s.delim = 1 → s.rxOvf = false → 3 ≤ s.rxLen →
    Memory.read s.rxBuf (s.rxLen - 1) ++ Memory.read s.rxBuf (s.rxLen - 2) = s.rxCrc →
    ∃ t d, exec (.rxFeed 0x00) s = .next t ∧
      (d : Int) = (((Memory.read s.rxBuf 0).toNat : Int) - (((tableGet s.lastSeq s.rxNode).toNat : Int) + 1) % 256) % 256 ∧
      (tableGet t.good s.rxNode).toNat = ((tableGet s.good s.rxNode).toNat + 1) % 65536 ∧
      ((tableGet t.lost s.rxNode).toNat : Int) = (((tableGet s.lost s.rxNode).toNat : Int) + d) % 65536 ∧
      tableGet t.lastSeq s.rxNode = Memory.read s.rxBuf 0 ∧
      (∀ other, other ≠ s.rxNode → tableGet t.good other = tableGet s.good other ∧
        tableGet t.lost other = tableGet s.lost other ∧ tableGet t.lastSeq other = tableGet s.lastSeq other) ∧
      t.evOut = s.evOut ++ [.frame s.rxNode (Memory.bytes s.rxBuf 1 (s.rxLen - 3))] ∧
      (Memory.read s.rxBuf 0 = tableGet s.lastSeq s.rxNode + 1 → d = 0) ∧
      (Memory.read s.rxBuf 0 = tableGet s.lastSeq s.rxNode → d = 255) ∧
      (Memory.read s.rxBuf 0 = tableGet s.lastSeq s.rxNode - 1 → d = 254)

/-- R164: in Idle a byte that is no delimiter, a valid marker value included, only clears the delimiter counter. -/
def Obligations.IdleIgnoresBytes : Prop :=
  ∀ (s : State) (c : Byte), decoderState s = .idle → c ≠ 0x00 → exec (.rxFeed c) s = .next { s with delim := 0 }

/-- R165: in Addressing a byte that is no delimiter is a marker. A valid one, whatever the local node, opens the assembly and stores
nothing; an invalid one is reported and leaves the decoder Idle, where it ignores every byte until the next break. -/
def Obligations.MarkerInAddressing : Prop :=
  ∀ (s : State) (c : Byte), decoderState s = .addressing → c ≠ 0x00 →
    (255 - c.toNat < s.cfg.maxNodes →
      exec (.rxFeed c) s = .next
        { s with
          rxNode := BitVec.ofNat 8 (255 - c.toNat)
          rxLen := 0
          rxOvf := false
          rxCrc := crcFold s.cfg s.cfg.crcInit [c]
          rxBusy := true
          delim := 0 }) ∧
    (s.cfg.maxNodes ≤ 255 - c.toNat →
      ∃ t, exec (.rxFeed c) s = .next t ∧
        t = { s with evOut := s.evOut ++ [.error .addr (BitVec.ofNat 16 c.toNat)], delim := 0 } ∧
        decoderState t = .idle ∧ ∀ noise, noise ≠ 0x00 → exec (.rxFeed noise) t = .next t)

/-- R166: in Receiving, a byte `c` after one delimiter appends `c` zero bytes. Those past the capacity are dropped and set the overflow
flag. The accumulator takes the buffer's bytes two behind. Every other byte of the buffer reads as before. -/
def Obligations.EscapePairAppendsZeros : Prop :=
  ∀ (s : State) (c : Byte), s.Inv → s.rxBusy = true → s.delim = 1 → c ≠ 0x00 →
    ∃ t, exec (.rxFeed c) s = .next t ∧
      t = { s with
        delim := 0
        rxLen := min s.cfg.rxCapacity (s.rxLen + c.toNat)
        rxOvf := s.rxOvf || decide (s.cfg.rxCapacity < s.rxLen + c.toNat)
        rxCrc := crcFold s.cfg s.rxCrc (Memory.bytes t.rxBuf (s.rxLen - 2) (t.rxLen - 2 - (s.rxLen - 2)))
        rxBuf := t.rxBuf } ∧
      ∀ k, Memory.read t.rxBuf k = if s.rxLen ≤ k ∧ k < t.rxLen then 0x00 else Memory.read s.rxBuf k

/-- R167, R171: in Receiving, a literal after no delimiter is appended: stored at the fill length, the accumulator taking the byte two
before it, every other byte of the buffer reading as before. At the capacity it is dropped and only the overflow flag is set. -/
def Obligations.LiteralIsAppended : Prop :=
  ∀ (s : State) (c : Byte), s.Inv → s.rxBusy = true → s.delim = 0 → c ≠ 0x00 →
    (s.rxLen < s.cfg.rxCapacity →
      ∃ t, exec (.rxFeed c) s = .next t ∧
        t = { s with
          rxLen := s.rxLen + 1
          rxCrc := if 2 ≤ s.rxLen then crcStep s.cfg s.rxCrc (Memory.read s.rxBuf (s.rxLen - 2)) else s.rxCrc
          rxBuf := t.rxBuf } ∧
        ∀ k, Memory.read t.rxBuf k = if k = s.rxLen then c else Memory.read s.rxBuf k) ∧
    (s.rxLen = s.cfg.rxCapacity → exec (.rxFeed c) s = .next { s with rxOvf := true })

/-- R168: RX_FEED of any byte in any state answers a next state, raises no fault, and writes no transmit field, no transport output, no
response and no configuration. -/
def Obligations.RxFeedNeverFaults : Prop :=
  ∀ (s : State) (c : Byte), ∃ t, exec (.rxFeed c) s = .next t ∧ t.fault = s.fault ∧ t.transmitPart = s.transmitPart ∧
    t.respOut = s.respOut ∧ t.pending = s.pending ∧ (c ≠ 0x00 → t.delim = 0)

/-- R180: one RX_FEED appends at most one event. An address error comes from a marker; an overflow, a CRC error or a frame comes from a
completing delimiter; a short frame and every other byte give none. -/
def Obligations.AtMostOneEventPerByte : Prop :=
  ∀ (s t : State) (c : Byte), exec (.rxFeed c) s = .next t →
    t.evOut = s.evOut ∨
    (decoderState s = .addressing ∧ c ≠ 0x00 ∧ s.cfg.maxNodes ≤ 255 - c.toNat ∧
      t.evOut = s.evOut ++ [.error .addr (BitVec.ofNat 16 c.toNat)]) ∨
    (decoderState s = .receiving ∧ s.delim ≠ 0 ∧ c = 0x00 ∧ t.rxBusy = false ∧ (s.rxOvf = true ∨ 3 ≤ s.rxLen) ∧
      ∃ e, t.evOut = s.evOut ++ [e] ∧
        ((∃ info, e = .error .overflow info) ∨ (∃ info, e = .error .crc info) ∨ ∃ node payload, e = .frame node payload))

/-- R179: two delimiters in a row bring the decoder to Addressing from any state; a frame in progress is completed at one of them, and
the assembly state reset. -/
def Obligations.TwoDelimitersResynchronise : Prop :=
  ∀ s : State, ∃ t u, exec (.rxFeed 0x00) s = .next t ∧ exec (.rxFeed 0x00) t = .next u ∧
    decoderState u = .addressing ∧ u.rxBusy = false ∧ u.delim = 2 ∧
    (decoderState s = .receiving → u.rxLen = 0 ∧ u.rxOvf = false ∧ u.rxCrc = s.cfg.crcInit ∧
      (u = rxComplete { s with delim := 2, rxBusy := false }))

/-- R223: the state after each kind of error: the block can take the next frame. -/
def Obligations.ErrorsLeaveTheBlockReady : Prop :=
  ∀ (i : Instr) (s t : State) (kind : ErrKind) (info : Half), exec i s = .next t →
    t.evOut = s.evOut ++ [.error kind info] →
    (kind = .addr → decoderState t = .idle) ∧
    (kind = .crc ∨ kind = .overflow →
      decoderState t = .addressing ∧ t.rxLen = 0 ∧ t.rxOvf = false ∧ t.rxCrc = t.cfg.crcInit) ∧
    (kind = .txOversize → t.transmitPart = s.transmitPart ∧ t.txActive = true)

/-- R81, R166, R167: feeding an escaped frame whose bytes fit restores those bytes in the assembly buffer, with no event. -/
def Obligations.DecoderRestoresFrameBytes : Prop :=
  ∀ (s : State) (node : Byte) (bytes : List Byte), s.Inv → s.fault = none → decoderState s = .addressing →
    node.toNat < s.cfg.maxNodes → bytes.length ≤ s.cfg.rxCapacity →
    ∃ t, feedAll (escape (markerOf node :: bytes)) s = .next t ∧ t.rxBusy = true ∧ t.delim = 0 ∧ t.rxNode = node ∧
      t.rxOvf = false ∧ t.rxLen = bytes.length ∧ Memory.bytes t.rxBuf 0 t.rxLen = bytes ∧ t.evOut = s.evOut

/-- R187: a frame whose bytes exceed the capacity gives no event before its closing break and exactly one overflow error at it, delivers
nothing, changes no counter and leaves the decoder in Addressing. -/
def Obligations.OverlongFrameReportsOnce : Prop :=
  ∀ (s : State) (node : Byte) (bytes : List Byte), s.Inv → s.fault = none → decoderState s = .addressing →
    node.toNat < s.cfg.maxNodes → s.cfg.rxCapacity < bytes.length →
    ∃ t u, feedAll (escape (markerOf node :: bytes)) s = .next t ∧ t.evOut = s.evOut ∧ feedAll breakBytes t = .next u ∧
      u.evOut = s.evOut ++ [.error .overflow (BitVec.ofNat 16 s.cfg.rxCapacity)] ∧
      u.good = s.good ∧ u.lost = s.lost ∧ u.lastSeq = s.lastSeq ∧ decoderState u = .addressing

/-- R186: the round trip. A transmitter in any state sends a frame; the bytes it sent, fed in order to a decoder that is not Receiving
and is in Addressing or gets an opening break with the frame, append exactly the one event that delivers header and payload. It
holds for every CRC function. -/
def Obligations.RoundTripDeliversTheFrame : Prop :=
  ∀ (st sr : State) (node hdr : Byte) (writes : List (List Byte)),
    sr.Inv → sr.cfg = st.cfg → st.fault = none → sr.fault = none →
    node.toNat < st.cfg.maxNodes → (∀ data ∈ writes, data.length ≤ st.cfg.maxTransmit) →
    writes.flatten.length + 4 ≤ st.cfg.rxCapacity →
    sr.rxBusy = false → (decoderState sr = .addressing ∨ st.txActive = true ∨ st.needBreak = true) →
    ∃ tt span tr,
      execAll (.txBegin node hdr :: (writes.map .txWrite ++ [.txEnd])) st = .next tt ∧ tt.txOut = st.txOut ++ span ∧
      feedAll (wireBytes span) sr = .next tr ∧ tr.evOut = sr.evOut ++ [.frame node (hdr :: writes.flatten)]

/-! ### Statistics (43_statistics.md) -/

/-- R202: what RX_STATUS leaves, for every node: one response word, good in its high half and lost in its low half, both counters of the
node zero and nothing else changed; past the last node, the fault and nothing else. -/
def Obligations.RxStatusReadsAndClears : Prop :=
  ∀ (s : State) (node : Byte),
    (node.toNat < s.cfg.maxNodes →
      ∃ t word, exec (.rxStatus node) s = .next t ∧
        word.toNat = (tableGet s.good node).toNat * 65536 + (tableGet s.lost node).toNat ∧
        t = { s with respOut := s.respOut ++ [word], good := t.good, lost := t.lost } ∧
        tableGet t.good node = 0 ∧ tableGet t.lost node = 0 ∧
        ∀ other, other ≠ node → tableGet t.good other = tableGet s.good other ∧ tableGet t.lost other = tableGet s.lost other) ∧
    (s.cfg.maxNodes ≤ node.toNat → exec (.rxStatus node) s = .next { s with fault := some .badNode })

/-- R59: a second RX_STATUS of a node, right after the first, answers zero and zero. -/
def Obligations.SecondStatusReadsZero : Prop :=
  ∀ (s : State) (node : Byte), node.toNat < s.cfg.maxNodes →
    ∃ t u, exec (.rxStatus node) s = .next t ∧ exec (.rxStatus node) t = .next u ∧ u.respOut = t.respOut ++ [0x00000000]
end

