-- ==== Sys2Proof/Laws/Crc.lean ====
section
/-! SUPPORT. The laws of the CRC fold (spec 40_crc.md R103). -/

namespace Sys2Proof.Machine

@[simp] theorem crcFold_nil (c : Config) (crc : Half) : crcFold c crc [] = crc := rfl

@[simp] theorem crcFold_cons (c : Config) (crc : Half) (b : Byte) (rest : List Byte) :
    crcFold c crc (b :: rest) = crcFold c (crcStep c crc b) rest := rfl

theorem crcFold_append (c : Config) (crc : Half) (xs ys : List Byte) :
    crcFold c crc (xs ++ ys) = crcFold c (crcFold c crc xs) ys := by
  induction xs generalizing crc with
  | nil => rfl
  | cons b rest ih => exact ih _

/-- The fold depends on the configuration through its update function only. -/
theorem crcStep_congr {c d : Config} (h : c.crcAlgorithm = d.crcAlgorithm) (crc : Half) (b : Byte) :
    crcStep c crc b = crcStep d crc b := by
  unfold crcStep
  rw [h]

end Sys2Proof.Machine
end

