-- ==== Sys2Proof/Laws/State.lean ====
section
/-! SUPPORT. What each output operation does to each field of the state. -/

namespace Sys2Proof.Machine

/-! ### `emit` -/

@[simp] theorem emit_cfg (item : TxItem) (s : State) : (emit item s).cfg = s.cfg := rfl
@[simp] theorem emit_txActive (item : TxItem) (s : State) : (emit item s).txActive = s.txActive := rfl
@[simp] theorem emit_needBreak (item : TxItem) (s : State) : (emit item s).needBreak = s.needBreak := rfl
@[simp] theorem emit_txCrc (item : TxItem) (s : State) : (emit item s).txCrc = s.txCrc := rfl
@[simp] theorem emit_escRun (item : TxItem) (s : State) : (emit item s).escRun = s.escRun := rfl
@[simp] theorem emit_txSeq (item : TxItem) (s : State) : (emit item s).txSeq = s.txSeq := rfl
@[simp] theorem emit_rxBusy (item : TxItem) (s : State) : (emit item s).rxBusy = s.rxBusy := rfl
@[simp] theorem emit_delim (item : TxItem) (s : State) : (emit item s).delim = s.delim := rfl
@[simp] theorem emit_rxNode (item : TxItem) (s : State) : (emit item s).rxNode = s.rxNode := rfl
@[simp] theorem emit_rxCrc (item : TxItem) (s : State) : (emit item s).rxCrc = s.rxCrc := rfl
@[simp] theorem emit_rxLen (item : TxItem) (s : State) : (emit item s).rxLen = s.rxLen := rfl
@[simp] theorem emit_rxBuf (item : TxItem) (s : State) : (emit item s).rxBuf = s.rxBuf := rfl
@[simp] theorem emit_rxOvf (item : TxItem) (s : State) : (emit item s).rxOvf = s.rxOvf := rfl
@[simp] theorem emit_lastSeq (item : TxItem) (s : State) : (emit item s).lastSeq = s.lastSeq := rfl
@[simp] theorem emit_good (item : TxItem) (s : State) : (emit item s).good = s.good := rfl
@[simp] theorem emit_lost (item : TxItem) (s : State) : (emit item s).lost = s.lost := rfl
@[simp] theorem emit_txOut (item : TxItem) (s : State) : (emit item s).txOut = s.txOut ++ [item] := rfl
@[simp] theorem emit_evOut (item : TxItem) (s : State) : (emit item s).evOut = s.evOut := rfl
@[simp] theorem emit_respOut (item : TxItem) (s : State) : (emit item s).respOut = s.respOut := rfl
@[simp] theorem emit_fault (item : TxItem) (s : State) : (emit item s).fault = s.fault := rfl
@[simp] theorem emit_pending (item : TxItem) (s : State) : (emit item s).pending = s.pending := rfl

/-! ### `report` -/

@[simp] theorem report_cfg (kind : ErrKind) (info : Half) (s : State) : (report kind info s).cfg = s.cfg := rfl
@[simp] theorem report_txActive (kind : ErrKind) (info : Half) (s : State) : (report kind info s).txActive = s.txActive := rfl
@[simp] theorem report_needBreak (kind : ErrKind) (info : Half) (s : State) : (report kind info s).needBreak = s.needBreak := rfl
@[simp] theorem report_txCrc (kind : ErrKind) (info : Half) (s : State) : (report kind info s).txCrc = s.txCrc := rfl
@[simp] theorem report_escRun (kind : ErrKind) (info : Half) (s : State) : (report kind info s).escRun = s.escRun := rfl
@[simp] theorem report_txSeq (kind : ErrKind) (info : Half) (s : State) : (report kind info s).txSeq = s.txSeq := rfl
@[simp] theorem report_rxBusy (kind : ErrKind) (info : Half) (s : State) : (report kind info s).rxBusy = s.rxBusy := rfl
@[simp] theorem report_delim (kind : ErrKind) (info : Half) (s : State) : (report kind info s).delim = s.delim := rfl
@[simp] theorem report_rxNode (kind : ErrKind) (info : Half) (s : State) : (report kind info s).rxNode = s.rxNode := rfl
@[simp] theorem report_rxCrc (kind : ErrKind) (info : Half) (s : State) : (report kind info s).rxCrc = s.rxCrc := rfl
@[simp] theorem report_rxLen (kind : ErrKind) (info : Half) (s : State) : (report kind info s).rxLen = s.rxLen := rfl
@[simp] theorem report_rxBuf (kind : ErrKind) (info : Half) (s : State) : (report kind info s).rxBuf = s.rxBuf := rfl
@[simp] theorem report_rxOvf (kind : ErrKind) (info : Half) (s : State) : (report kind info s).rxOvf = s.rxOvf := rfl
@[simp] theorem report_lastSeq (kind : ErrKind) (info : Half) (s : State) : (report kind info s).lastSeq = s.lastSeq := rfl
@[simp] theorem report_good (kind : ErrKind) (info : Half) (s : State) : (report kind info s).good = s.good := rfl
@[simp] theorem report_lost (kind : ErrKind) (info : Half) (s : State) : (report kind info s).lost = s.lost := rfl
@[simp] theorem report_txOut (kind : ErrKind) (info : Half) (s : State) : (report kind info s).txOut = s.txOut := rfl
@[simp] theorem report_evOut (kind : ErrKind) (info : Half) (s : State) : (report kind info s).evOut = s.evOut ++ [.error kind info] := rfl
@[simp] theorem report_respOut (kind : ErrKind) (info : Half) (s : State) : (report kind info s).respOut = s.respOut := rfl
@[simp] theorem report_fault (kind : ErrKind) (info : Half) (s : State) : (report kind info s).fault = s.fault := rfl
@[simp] theorem report_pending (kind : ErrKind) (info : Half) (s : State) : (report kind info s).pending = s.pending := rfl

/-! ### `deliver` -/

@[simp] theorem deliver_cfg (node : Byte) (payload : List Byte) (s : State) : (deliver node payload s).cfg = s.cfg := rfl
@[simp] theorem deliver_txActive (node : Byte) (payload : List Byte) (s : State) : (deliver node payload s).txActive = s.txActive := rfl
@[simp] theorem deliver_needBreak (node : Byte) (payload : List Byte) (s : State) : (deliver node payload s).needBreak = s.needBreak := rfl
@[simp] theorem deliver_txCrc (node : Byte) (payload : List Byte) (s : State) : (deliver node payload s).txCrc = s.txCrc := rfl
@[simp] theorem deliver_escRun (node : Byte) (payload : List Byte) (s : State) : (deliver node payload s).escRun = s.escRun := rfl
@[simp] theorem deliver_txSeq (node : Byte) (payload : List Byte) (s : State) : (deliver node payload s).txSeq = s.txSeq := rfl
@[simp] theorem deliver_rxBusy (node : Byte) (payload : List Byte) (s : State) : (deliver node payload s).rxBusy = s.rxBusy := rfl
@[simp] theorem deliver_delim (node : Byte) (payload : List Byte) (s : State) : (deliver node payload s).delim = s.delim := rfl
@[simp] theorem deliver_rxNode (node : Byte) (payload : List Byte) (s : State) : (deliver node payload s).rxNode = s.rxNode := rfl
@[simp] theorem deliver_rxCrc (node : Byte) (payload : List Byte) (s : State) : (deliver node payload s).rxCrc = s.rxCrc := rfl
@[simp] theorem deliver_rxLen (node : Byte) (payload : List Byte) (s : State) : (deliver node payload s).rxLen = s.rxLen := rfl
@[simp] theorem deliver_rxBuf (node : Byte) (payload : List Byte) (s : State) : (deliver node payload s).rxBuf = s.rxBuf := rfl
@[simp] theorem deliver_rxOvf (node : Byte) (payload : List Byte) (s : State) : (deliver node payload s).rxOvf = s.rxOvf := rfl
@[simp] theorem deliver_lastSeq (node : Byte) (payload : List Byte) (s : State) : (deliver node payload s).lastSeq = s.lastSeq := rfl
@[simp] theorem deliver_good (node : Byte) (payload : List Byte) (s : State) : (deliver node payload s).good = s.good := rfl
@[simp] theorem deliver_lost (node : Byte) (payload : List Byte) (s : State) : (deliver node payload s).lost = s.lost := rfl
@[simp] theorem deliver_txOut (node : Byte) (payload : List Byte) (s : State) : (deliver node payload s).txOut = s.txOut := rfl
@[simp] theorem deliver_evOut (node : Byte) (payload : List Byte) (s : State) : (deliver node payload s).evOut = s.evOut ++ [.frame node payload] := rfl
@[simp] theorem deliver_respOut (node : Byte) (payload : List Byte) (s : State) : (deliver node payload s).respOut = s.respOut := rfl
@[simp] theorem deliver_fault (node : Byte) (payload : List Byte) (s : State) : (deliver node payload s).fault = s.fault := rfl
@[simp] theorem deliver_pending (node : Byte) (payload : List Byte) (s : State) : (deliver node payload s).pending = s.pending := rfl

/-! ### `respond` -/

@[simp] theorem respond_cfg (w : Word) (s : State) : (respond w s).cfg = s.cfg := rfl
@[simp] theorem respond_txActive (w : Word) (s : State) : (respond w s).txActive = s.txActive := rfl
@[simp] theorem respond_needBreak (w : Word) (s : State) : (respond w s).needBreak = s.needBreak := rfl
@[simp] theorem respond_txCrc (w : Word) (s : State) : (respond w s).txCrc = s.txCrc := rfl
@[simp] theorem respond_escRun (w : Word) (s : State) : (respond w s).escRun = s.escRun := rfl
@[simp] theorem respond_txSeq (w : Word) (s : State) : (respond w s).txSeq = s.txSeq := rfl
@[simp] theorem respond_rxBusy (w : Word) (s : State) : (respond w s).rxBusy = s.rxBusy := rfl
@[simp] theorem respond_delim (w : Word) (s : State) : (respond w s).delim = s.delim := rfl
@[simp] theorem respond_rxNode (w : Word) (s : State) : (respond w s).rxNode = s.rxNode := rfl
@[simp] theorem respond_rxCrc (w : Word) (s : State) : (respond w s).rxCrc = s.rxCrc := rfl
@[simp] theorem respond_rxLen (w : Word) (s : State) : (respond w s).rxLen = s.rxLen := rfl
@[simp] theorem respond_rxBuf (w : Word) (s : State) : (respond w s).rxBuf = s.rxBuf := rfl
@[simp] theorem respond_rxOvf (w : Word) (s : State) : (respond w s).rxOvf = s.rxOvf := rfl
@[simp] theorem respond_lastSeq (w : Word) (s : State) : (respond w s).lastSeq = s.lastSeq := rfl
@[simp] theorem respond_good (w : Word) (s : State) : (respond w s).good = s.good := rfl
@[simp] theorem respond_lost (w : Word) (s : State) : (respond w s).lost = s.lost := rfl
@[simp] theorem respond_txOut (w : Word) (s : State) : (respond w s).txOut = s.txOut := rfl
@[simp] theorem respond_evOut (w : Word) (s : State) : (respond w s).evOut = s.evOut := rfl
@[simp] theorem respond_respOut (w : Word) (s : State) : (respond w s).respOut = s.respOut ++ [w] := rfl
@[simp] theorem respond_fault (w : Word) (s : State) : (respond w s).fault = s.fault := rfl
@[simp] theorem respond_pending (w : Word) (s : State) : (respond w s).pending = s.pending := rfl

/-! ### `raise` -/

@[simp] theorem raise_cfg (r : Fault) (s : State) : (raise r s).cfg = s.cfg := rfl
@[simp] theorem raise_txActive (r : Fault) (s : State) : (raise r s).txActive = s.txActive := rfl
@[simp] theorem raise_needBreak (r : Fault) (s : State) : (raise r s).needBreak = s.needBreak := rfl
@[simp] theorem raise_txCrc (r : Fault) (s : State) : (raise r s).txCrc = s.txCrc := rfl
@[simp] theorem raise_escRun (r : Fault) (s : State) : (raise r s).escRun = s.escRun := rfl
@[simp] theorem raise_txSeq (r : Fault) (s : State) : (raise r s).txSeq = s.txSeq := rfl
@[simp] theorem raise_rxBusy (r : Fault) (s : State) : (raise r s).rxBusy = s.rxBusy := rfl
@[simp] theorem raise_delim (r : Fault) (s : State) : (raise r s).delim = s.delim := rfl
@[simp] theorem raise_rxNode (r : Fault) (s : State) : (raise r s).rxNode = s.rxNode := rfl
@[simp] theorem raise_rxCrc (r : Fault) (s : State) : (raise r s).rxCrc = s.rxCrc := rfl
@[simp] theorem raise_rxLen (r : Fault) (s : State) : (raise r s).rxLen = s.rxLen := rfl
@[simp] theorem raise_rxBuf (r : Fault) (s : State) : (raise r s).rxBuf = s.rxBuf := rfl
@[simp] theorem raise_rxOvf (r : Fault) (s : State) : (raise r s).rxOvf = s.rxOvf := rfl
@[simp] theorem raise_lastSeq (r : Fault) (s : State) : (raise r s).lastSeq = s.lastSeq := rfl
@[simp] theorem raise_good (r : Fault) (s : State) : (raise r s).good = s.good := rfl
@[simp] theorem raise_lost (r : Fault) (s : State) : (raise r s).lost = s.lost := rfl
@[simp] theorem raise_txOut (r : Fault) (s : State) : (raise r s).txOut = s.txOut := rfl
@[simp] theorem raise_evOut (r : Fault) (s : State) : (raise r s).evOut = s.evOut := rfl
@[simp] theorem raise_respOut (r : Fault) (s : State) : (raise r s).respOut = s.respOut := rfl
@[simp] theorem raise_fault (r : Fault) (s : State) : (raise r s).fault = some r := rfl
@[simp] theorem raise_pending (r : Fault) (s : State) : (raise r s).pending = s.pending := rfl

end Sys2Proof.Machine
end

