-- ==== Sys2Proof/Laws/Escaper.lean ====
section
/-! SUPPORT. Everything the transmit micro-operations can do: spec 41_transmit.md R121 to R125. -/

namespace Sys2Proof.Machine

@[simp] theorem runPairs_zero : runPairs 0 = [] := rfl

/-- A run shorter than a full chunk is one pair. -/
theorem runPairs_short {r : Nat} (h0 : 0 < r) (h : r < 255) : runPairs r = [0x00, BitVec.ofNat 8 r] := by
  rw [runPairs, Nat.div_eq_of_lt h, Nat.mod_eq_of_lt h, if_neg (by omega)]
  rfl

/-- A full chunk goes in front. -/
theorem runPairs_chunk (r : Nat) : runPairs (255 + r) = 0x00 :: 0xFF :: runPairs r := by
  have h1 : (255 + r) / 255 = r / 255 + 1 := by omega
  have h2 : (255 + r) % 255 = r % 255 := by omega
  rw [runPairs, runPairs, h1, h2]
  rfl

/-- A full chunk of a run still open goes in front of the wire bytes. -/
theorem escapeAfter_chunk (frame : List Byte) (r : Nat) :
    escapeAfter (255 + r) frame = 0x00 :: 0xFF :: escapeAfter r frame := by
  induction frame generalizing r with
  | nil => exact runPairs_chunk r
  | cons b rest ih =>
    rw [escapeAfter, escapeAfter]
    split
    · exact ih (r + 1)
    · rw [runPairs_chunk]
      rfl

/-- The open run is counted modulo the full chunks already sent. -/
theorem openRun_chunk (frame : List Byte) (r : Nat) : openRun (255 + r) frame % 255 = openRun r frame % 255 := by
  induction frame generalizing r with
  | nil => simp [openRun]
  | cons b rest ih =>
    rw [openRun, openRun]
    split
    · exact ih (r + 1)
    · rfl

/-- R122: what `EscFlush` does. -/
theorem escFlush_eq {s : State} (h : s.escRun.toNat ≤ 254) :
    escFlush s = { s with txOut := s.txOut ++ (runPairs s.escRun.toNat).map .byte, escRun := 0 } := by
  rw [escFlush]
  split
  · rename_i h0
    cases s
    simp only at h0
    simp [h0]
  · rename_i h0
    have hpos : 0 < s.escRun.toNat := by
      rcases Nat.eq_zero_or_pos s.escRun.toNat with h' | h'
      · exact absurd (BitVec.eq_of_toNat_eq (by simpa using h')) h0
      · exact h'
    rw [runPairs_short hpos (by omega)]
    simp [emitPair, emit]

/-- R121 over a byte sequence: the CRC folds over the unescaped bytes; what is sent and the run left pending are, together, the
escaped bytes of R81. -/
theorem escPutAll_eq (frame : List Byte) {s : State} (h : s.escRun.toNat ≤ 254) :
    ∃ sent : List Byte,
      sent ++ runPairs (openRun s.escRun.toNat frame % 255) = escapeAfter s.escRun.toNat frame ∧
      escPutAll frame s =
        { s with
          txCrc := crcFold s.cfg s.txCrc frame
          escRun := BitVec.ofNat 8 (openRun s.escRun.toNat frame % 255)
          txOut := s.txOut ++ sent.map .byte } := by
  induction frame generalizing s with
  | nil =>
    refine ⟨[], ?_, ?_⟩
    · simp [openRun, escapeAfter, Nat.mod_eq_of_lt (show s.escRun.toNat < 255 by omega)]
    · have hrun : BitVec.ofNat 8 (s.escRun.toNat % 255) = s.escRun := by
        rw [Nat.mod_eq_of_lt (by omega), BitVec.ofNat_toNat, BitVec.setWidth_eq]
      simp [escPutAll, openRun, hrun]
  | cons b rest ih =>
    rw [escPutAll, escPut]
    by_cases hb : b = 0x00
    · subst hb
      simp only [escDelimiter, if_true, openRun, escapeAfter, crcFold_cons]
      by_cases hr : s.escRun + 1 = 255
      · have hn : s.escRun.toNat = 254 := by
          have := congrArg BitVec.toNat hr
          simp [BitVec.toNat_add] at this
          omega
        obtain ⟨sent, h1, h2⟩ := ih (s := { emitPair 0x00 0xFF { s with txCrc := crcStep s.cfg s.txCrc 0x00 } with escRun := 0 })
          (by simp)
        change sent ++ runPairs (openRun 0 rest % 255) = escapeAfter 0 rest at h1
        refine ⟨0x00 :: 0xFF :: sent, ?_, ?_⟩
        · rw [hn]
          have e1 := openRun_chunk rest 0
          have e2 := escapeAfter_chunk rest 0
          simp only [Nat.add_zero] at e1 e2
          rw [e1, e2, ← h1]
          rfl
        · rw [if_pos hr, h2, hn]
          have e1 := openRun_chunk rest 0
          simp only [Nat.add_zero] at e1
          simp [emitPair, emit, e1]
      · have hlt : s.escRun.toNat + 1 < 255 := by
          rcases Nat.lt_or_ge (s.escRun.toNat + 1) 255 with h' | h'
          · exact h'
          · exact absurd (BitVec.eq_of_toNat_eq (by simp [BitVec.toNat_add]; omega)) hr
        have hn : (s.escRun + 1).toNat = s.escRun.toNat + 1 := by
          rw [BitVec.toNat_add]
          simp
          omega
        obtain ⟨sent, h1, h2⟩ := ih (s := { s with txCrc := crcStep s.cfg s.txCrc 0x00, escRun := s.escRun + 1 })
          (by simp only [hn]; omega)
        refine ⟨sent, ?_, ?_⟩
        · rw [← hn]
          exact h1
        · rw [if_neg hr, h2, ← hn]
    · simp only [if_neg hb, openRun, escapeAfter, crcFold_cons]
      rw [escFlush_eq (by exact h)]
      obtain ⟨sent, h1, h2⟩ := ih
        (s := emit (.byte b) { s with
          txCrc := crcStep s.cfg s.txCrc b
          txOut := s.txOut ++ (runPairs s.escRun.toNat).map .byte
          escRun := 0 }) (by simp)
      refine ⟨runPairs s.escRun.toNat ++ b :: sent, ?_, ?_⟩
      · rw [List.append_assoc, List.cons_append]
        exact congrArg (fun l => runPairs s.escRun.toNat ++ b :: l) h1
      · rw [h2]
        simp [emit]

/-! ### What the micro-operations leave alone, in every state -/

theorem escFlush_frame (s : State) :
    ∃ run out, escFlush s = { s with escRun := run, txOut := s.txOut ++ List.map TxItem.byte out } := by
  unfold escFlush
  split
  · exact ⟨s.escRun, [], by simp⟩
  · exact ⟨0, [0x00, s.escRun], by simp [emitPair, emit]⟩

theorem escPut_frame (b : Byte) (s : State) :
    ∃ crc run out,
      escPut b s = { s with txCrc := crc, escRun := run, txOut := s.txOut ++ List.map TxItem.byte out } := by
  unfold escPut escDelimiter
  dsimp only
  split
  · split
    · exact ⟨crcStep s.cfg s.txCrc b, 0, [0x00, 0xFF], by simp [emitPair, emit]⟩
    · exact ⟨crcStep s.cfg s.txCrc b, s.escRun + 1, [], by simp⟩
  · obtain ⟨run, out, h⟩ := escFlush_frame { s with txCrc := crcStep s.cfg s.txCrc b }
    exact ⟨crcStep s.cfg s.txCrc b, run, out ++ [b], by rw [h]; simp [emit]⟩

/-- The escaping writer changes the CRC, the run and the transport output only, and only appends bytes to the output. -/
theorem escPutAll_frame (frame : List Byte) (s : State) :
    ∃ crc run out,
      escPutAll frame s = { s with txCrc := crc, escRun := run, txOut := s.txOut ++ List.map TxItem.byte out } := by
  induction frame generalizing s with
  | nil => exact ⟨s.txCrc, s.escRun, [], by simp [escPutAll]⟩
  | cons b rest ih =>
    obtain ⟨crc₁, run₁, out₁, h₁⟩ := escPut_frame b s
    obtain ⟨crc₂, run₂, out₂, h₂⟩ := ih (escPut b s)
    exact ⟨crc₂, run₂, out₁ ++ out₂, by rw [escPutAll, h₂, h₁]; simp⟩

theorem escPutAll_append (xs ys : List Byte) (s : State) : escPutAll (xs ++ ys) s = escPutAll ys (escPutAll xs s) := by
  induction xs generalizing s with
  | nil => rfl
  | cons b rest ih => exact ih _

/-- R145: what TX_END changes. -/
theorem closeFrame_frame (s : State) :
    ∃ crc run out, closeFrame s = { s with txCrc := crc, escRun := run, txActive := false, txOut := s.txOut ++ out } := by
  obtain ⟨crc, run₁, out₁, h₁⟩ := escPutAll_frame [lowByte s.txCrc, highByte s.txCrc] s
  obtain ⟨run₂, out₂, h₂⟩ := escFlush_frame (escPutAll [lowByte s.txCrc, highByte s.txCrc] s)
  refine ⟨crc, run₂, (out₁ ++ out₂).map .byte ++ [.byte 0x00, .byte 0x00, .stop], ?_⟩
  rw [closeFrame, h₂, h₁]
  simp [emitBreak, emitPair, emit]

/-- R130: what TX_BEGIN sets before its frame bytes. -/
theorem openFrame_eq (node : Byte) (s : State) :
    openFrame node s =
      { s with
        needBreak := false
        txCrc := s.cfg.crcInit
        escRun := 0
        txActive := true
        txSeq := tableSet s.txSeq node (tableGet s.txSeq node + 1)
        txOut := s.txOut ++ .start :: (if breakDue s then [.byte 0x00, .byte 0x00] else []) } := by
  unfold openFrame
  dsimp only
  split <;> simp [emitBreak, emitPair, emit]

end Sys2Proof.Machine
end

