-- ==== Sys2Proof/Laws/Memory.lean ====
section
/-! SUPPORT. The laws of the assembly buffer's storage and of the per-node tables: reads after writes, and that every operation
keeps the canonical form. -/

namespace Sys2Proof.Machine

/-! ### Reads -/

@[simp] theorem Memory.read_nil (k : Nat) : Memory.read [] k = unwrittenByte := rfl

theorem Memory.read_cons (k j : Nat) (b : Byte) (m : Memory) (hm : b = unwrittenByte → j = k → Memory.read m j = unwrittenByte) :
    Memory.read (Memory.cons k b m) j = if j = k then b else Memory.read m j := by
  unfold Memory.cons
  by_cases hb : b = unwrittenByte
  · rw [if_pos hb]
    by_cases hj : j = k
    · rw [if_pos hj, hm hb hj, hb]
    · rw [if_neg hj]
  · rw [if_neg hb]
    simp only [Memory.read]
    by_cases hj : j = k
    · rw [if_pos hj, if_pos hj.symm]
    · rw [if_neg hj, if_neg (Ne.symm hj)]

/-- Below the first listed index nothing is listed. -/
theorem Memory.read_below {m : Memory} {low k : Nat} (hw : Memory.wf m = true) (hs : Memory.startsAt low m = true) (hk : k < low) :
    Memory.read m k = unwrittenByte := by
  induction m generalizing low with
  | nil => rfl
  | cons cell rest ih =>
    obtain ⟨a, v⟩ := cell
    simp only [Memory.wf, Bool.and_eq_true, decide_eq_true_eq] at hw
    simp only [Memory.startsAt, decide_eq_true_eq] at hs
    rw [Memory.read, if_neg (by omega)]
    exact ih hw.2 hw.1.2 (by omega)

/-- A write leaves every other index alone. -/
theorem Memory.read_write_ne (m : Memory) {k j : Nat} (b : Byte) (h : j ≠ k) :
    Memory.read (Memory.write m k b) j = Memory.read m j := by
  induction m with
  | nil => rw [Memory.write, Memory.read_cons _ _ _ _ (fun _ e => absurd e h), if_neg h]
  | cons cell rest ih =>
    obtain ⟨a, v⟩ := cell
    rw [Memory.write]
    split
    · rw [Memory.read_cons _ _ _ _ (fun _ e => absurd e h), if_neg h]
    · split
      · rename_i hk
        rw [Memory.read_cons _ _ _ _ (fun _ e => absurd e h), if_neg h, Memory.read, if_neg (by omega)]
      · rw [Memory.read, Memory.read, ih]

/-- A read after a write to the same index gives the byte written. -/
theorem Memory.read_write_same {m : Memory} (hw : Memory.wf m = true) (k : Nat) (b : Byte) :
    Memory.read (Memory.write m k b) k = b := by
  induction m with
  | nil => rw [Memory.write, Memory.read_cons _ _ _ _ (fun _ _ => rfl), if_pos rfl]
  | cons cell rest ih =>
    obtain ⟨a, v⟩ := cell
    have hw' := hw
    simp only [Memory.wf, Bool.and_eq_true, decide_eq_true_eq] at hw
    rw [Memory.write]
    split
    · rename_i hk
      rw [Memory.read_cons, if_pos rfl]
      exact fun _ _ => Memory.read_below (low := a) hw' (by simp [Memory.startsAt]) hk
    · split
      · rename_i hk
        rw [Memory.read_cons, if_pos rfl]
        exact fun _ _ => Memory.read_below hw.2 hw.1.2 (by omega)
      · rw [Memory.read, if_neg (by omega), ih hw.2]

/-- What a write does to every read. -/
theorem Memory.read_write {m : Memory} (hw : Memory.wf m = true) (k j : Nat) (b : Byte) :
    Memory.read (Memory.write m k b) j = if j = k then b else Memory.read m j := by
  split
  · rename_i h
    rw [h, Memory.read_write_same hw]
  · rename_i h
    exact Memory.read_write_ne m b h

/-! ### The canonical form is kept -/

theorem Memory.wf_cons {k : Nat} {b : Byte} {m : Memory} (hw : Memory.wf m = true) (hs : Memory.startsAt (k + 1) m = true) :
    Memory.wf (Memory.cons k b m) = true := by
  unfold Memory.cons
  split
  · exact hw
  · rename_i hb
    simp only [Memory.wf, hw, hs, Bool.and_true, decide_eq_true_eq]
    exact hb

theorem Memory.startsAt_cons {low k : Nat} {b : Byte} {m : Memory} (hk : low ≤ k) (hs : Memory.startsAt low m = true) :
    Memory.startsAt low (Memory.cons k b m) = true := by
  unfold Memory.cons
  split
  · exact hs
  · simpa [Memory.startsAt] using hk

theorem Memory.startsAt_mono {low high : Nat} (h : low ≤ high) {m : Memory} (hs : Memory.startsAt high m = true) :
    Memory.startsAt low m = true := by
  cases m with
  | nil => rfl
  | cons cell rest =>
    simp only [Memory.startsAt, decide_eq_true_eq] at *
    omega

theorem Memory.startsAt_write {low k : Nat} (b : Byte) {m : Memory} (hw : Memory.wf m = true) (hk : low ≤ k)
    (hs : Memory.startsAt low m = true) : Memory.startsAt low (Memory.write m k b) = true := by
  cases m with
  | nil => exact Memory.startsAt_cons hk rfl
  | cons cell rest =>
    obtain ⟨a, v⟩ := cell
    simp only [Memory.wf, Bool.and_eq_true] at hw
    have ha : low ≤ a := by simpa [Memory.startsAt] using hs
    rw [Memory.write]
    split
    · exact Memory.startsAt_cons hk hs
    · split
      · exact Memory.startsAt_cons hk (Memory.startsAt_mono (by omega) hw.1.2)
      · exact hs

theorem Memory.wf_write (k : Nat) (b : Byte) {m : Memory} (hw : Memory.wf m = true) : Memory.wf (Memory.write m k b) = true := by
  induction m with
  | nil => exact Memory.wf_cons rfl rfl
  | cons cell rest ih =>
    obtain ⟨a, v⟩ := cell
    have hw' := hw
    simp only [Memory.wf, Bool.and_eq_true, decide_eq_true_eq] at hw
    rw [Memory.write]
    split
    · rename_i hk
      exact Memory.wf_cons hw' (by simpa [Memory.startsAt] using hk)
    · split
      · rename_i hk
        exact Memory.wf_cons hw.2 (hk ▸ hw.1.2)
      · simp only [Memory.wf, Bool.and_eq_true, decide_eq_true_eq]
        exact ⟨⟨hw.1.1, Memory.startsAt_write b hw.2 (by omega) hw.1.2⟩, ih hw.2⟩

theorem Memory.within_cons {cap k : Nat} {b : Byte} {m : Memory} (hk : k < cap) (h : Memory.within cap m = true) :
    Memory.within cap (Memory.cons k b m) = true := by
  unfold Memory.cons
  split
  · exact h
  · simp only [Memory.within, List.all_cons, Bool.and_eq_true, decide_eq_true_eq]
    exact ⟨hk, h⟩

theorem Memory.within_write {cap k : Nat} (b : Byte) {m : Memory} (hk : k < cap) (h : Memory.within cap m = true) :
    Memory.within cap (Memory.write m k b) = true := by
  induction m with
  | nil => exact Memory.within_cons hk rfl
  | cons cell rest ih =>
    obtain ⟨a, v⟩ := cell
    have h' := h
    simp only [Memory.within, List.all_cons, Bool.and_eq_true] at h
    rw [Memory.write]
    split
    · exact Memory.within_cons hk h'
    · split
      · exact Memory.within_cons hk h.2
      · simp only [Memory.within, List.all_cons, Bool.and_eq_true]
        exact ⟨h.1, ih h.2⟩

/-! ### Byte sequences -/

@[simp] theorem Memory.bytes_length (m : Memory) (start n : Nat) : (Memory.bytes m start n).length = n := by
  induction n generalizing start with
  | zero => rfl
  | succ n ih => simp [Memory.bytes, ih]

/-- One byte more at the end. -/
theorem Memory.bytes_snoc (m : Memory) (start n : Nat) :
    Memory.bytes m start (n + 1) = Memory.bytes m start n ++ [Memory.read m (start + n)] := by
  induction n generalizing start with
  | zero => rfl
  | succ n ih =>
    rw [Memory.bytes, ih, Memory.bytes, List.cons_append]
    congr 4
    omega

/-- Byte sequences agree where the reads do. -/
theorem Memory.bytes_congr {m m' : Memory} {start n : Nat}
    (h : ∀ k, start ≤ k → k < start + n → Memory.read m k = Memory.read m' k) :
    Memory.bytes m start n = Memory.bytes m' start n := by
  induction n generalizing start with
  | zero => rfl
  | succ n ih =>
    rw [Memory.bytes, Memory.bytes, h start (by omega) (by omega), ih fun k hk hk' => h k (by omega) (by omega)]

/-- A write past a byte sequence leaves it alone. -/
theorem Memory.bytes_write_past (m : Memory) {start n k : Nat} (b : Byte) (h : start + n ≤ k) :
    Memory.bytes (Memory.write m k b) start n = Memory.bytes m start n :=
  Memory.bytes_congr fun _ _ _ => Memory.read_write_ne m b (by omega)

/-- The reads of an agreeing byte sequence agree. -/
theorem Memory.read_of_bytes {m m' : Memory} {start n k : Nat} (h : Memory.bytes m start n = Memory.bytes m' start n)
    (hk : start ≤ k) (hk' : k < start + n) : Memory.read m k = Memory.read m' k := by
  induction n generalizing start with
  | zero => omega
  | succ n ih =>
    simp only [Memory.bytes, List.cons.injEq] at h
    by_cases hs : k = start
    · rw [hs, h.1]
    · exact ih h.2 (by omega) (by omega)

/-! ### The per-node tables -/

@[simp] theorem tableSet_length {n : Nat} (t : List (BitVec n)) (node : Byte) (v : BitVec n) :
    (tableSet t node v).length = t.length := List.length_set

theorem tableGet_tableSet_same {n : Nat} {t : List (BitVec n)} {node : Byte} (v : BitVec n) (h : node.toNat < t.length) :
    tableGet (tableSet t node v) node = v := by
  unfold tableGet tableSet
  simp [List.getD_eq_getElem?_getD, h]

theorem tableGet_tableSet_ne {n : Nat} (t : List (BitVec n)) {node other : Byte} (v : BitVec n) (h : other ≠ node) :
    tableGet (tableSet t node v) other = tableGet t other := by
  have h' : node.toNat ≠ other.toNat := fun e => h (BitVec.eq_of_toNat_eq e.symm)
  unfold tableGet tableSet
  simp [List.getD_eq_getElem?_getD, h']

end Sys2Proof.Machine
end

