-- ==== Sys2Proof/Laws/PerInstr.lean ====
section
/-! SUPPORT. Facts of every instruction as syntax, one lemma per constructor: its encoding stands in its row of the opcode table. -/

namespace Sys2Proof.Laws.EncodesRow

/-- A command of the spec's opcode table (30_encoding.md R72): the value of `OP` in its row. -/
def opcode : Instr → BitVec 4
  | .txBegin _ _ => 0x1
  | .txWrite _ => 0x2
  | .txEnd => 0x3
  | .txResync => 0x4
  | .rxFeed _ => 0x5
  | .rxStatus _ => 0x6

/-- The bits that an instruction's format marks 0 (30_encoding.md R71), as a mask. -/
def mustBeZero : Instr → Word
  | .txBegin _ _ => 0x0F0000FF
  | .txWrite _ => 0x0FFF0000
  | .txEnd => 0x0FFFFFFF
  | .txResync => 0x0FFFFFFF
  | .rxFeed _ => 0x0FFFFF00
  | .rxStatus _ => 0x0F00FFFF

/-- The instruction's word has its row's opcode and zeros where its format says so, and it carries `LEN` bytes if it is a TX_WRITE and
none if it is another command (R74, R75). -/
def Statement (i : Instr) : Prop :=
  i.wellFormed = true →
    fieldOp (encodeWord i) = opcode i ∧ encodeWord i &&& mustBeZero i = 0 ∧
      (encodeData i).length = if opcode i = 0x2 then (fieldLen (encodeWord i)).toNat else 0

/-- The bits of a TX_BEGIN's word, from bit 0 up: zeros, the header, the node, zeros, the opcode. -/
theorem txBegin_bit (node hdr : Byte) (k : Nat) :
    (encodeWord (.txBegin node hdr)).getLsbD k =
      if k < 8 then (0x00#8).getLsbD k
      else if k - 8 < 8 then hdr.getLsbD (k - 8)
      else if k - 8 - 8 < 8 then node.getLsbD (k - 8 - 8)
      else if k - 8 - 8 - 8 < 4 then (0x0#4).getLsbD (k - 8 - 8 - 8)
      else (0x1#4).getLsbD (k - 8 - 8 - 8 - 4) := by
  show BitVec.getLsbD ((((0x1#4 ++ 0x0#4) ++ node) ++ hdr) ++ 0x00#8) k = _
  rw [BitVec.getLsbD_append, BitVec.getLsbD_append, BitVec.getLsbD_append, BitVec.getLsbD_append]

/-- The bits of a TX_WRITE's word, from bit 0 up: the length, zeros, the opcode. -/
theorem txWrite_bit (data : List Byte) (k : Nat) :
    (encodeWord (.txWrite data)).getLsbD k =
      if k < 16 then (BitVec.ofNat 16 data.length).getLsbD k else (0x2000#16).getLsbD (k - 16) := by
  show BitVec.getLsbD ((((0x2#4 ++ 0x0#4) ++ 0x00#8)) ++ BitVec.ofNat 16 data.length) k = _
  rw [BitVec.getLsbD_append]
  rfl

theorem txBegin (node hdr : Byte) : Statement (.txBegin node hdr) := by
  intro _
  refine ⟨?_, ?_, rfl⟩
  · apply BitVec.eq_of_getLsbD_eq
    intro k hk
    rw [fieldOp, BitVec.getLsbD_extractLsb', txBegin_bit]
    interval_cases k <;> simp [opcode]
  · apply BitVec.eq_of_getLsbD_eq
    intro k hk
    rw [BitVec.getLsbD_and, txBegin_bit]
    interval_cases k <;> simp [mustBeZero]

theorem txWrite (data : List Byte) : Statement (.txWrite data) := by
  intro h
  simp only [Instr.wellFormed, decide_eq_true_eq] at h
  have hlen : fieldLen (encodeWord (.txWrite data)) = BitVec.ofNat 16 data.length := by
    apply BitVec.eq_of_getLsbD_eq
    intro k hk
    rw [fieldLen, BitVec.getLsbD_extractLsb', txWrite_bit]
    simp [hk]
  refine ⟨?_, ?_, ?_⟩
  · apply BitVec.eq_of_getLsbD_eq
    intro k hk
    rw [fieldOp, BitVec.getLsbD_extractLsb', txWrite_bit]
    interval_cases k <;> simp [opcode]
  · apply BitVec.eq_of_getLsbD_eq
    intro k hk
    rw [BitVec.getLsbD_and, txWrite_bit]
    interval_cases k <;> simp [mustBeZero]
  · rw [hlen]
    simp [encodeData, opcode]
    omega

theorem txEnd : Statement .txEnd := fun _ => by decide

theorem txResync : Statement .txResync := fun _ => by decide

theorem rxFeed (c : Byte) : Statement (.rxFeed c) :=
  fun _ => ⟨by revert c; decide, by revert c; decide, rfl⟩

theorem rxStatus (node : Byte) : Statement (.rxStatus node) :=
  fun _ => ⟨by revert node; decide, by revert node; decide, rfl⟩

end Sys2Proof.Laws.EncodesRow
end

