-- ==== Sys2Proof/Laws/Receive.lean ====
section
/-! SUPPORT. Everything the receive micro-operations can do: spec 42_receive.md R171, R172. -/

namespace Sys2Proof.Machine

/-- `Append` of each byte, in order. -/
def rxAppendAll : List Byte → State → State
  | [], s => s
  | b :: rest, s => rxAppendAll rest (rxAppend b s)

theorem rxAppendAll_append (xs ys : List Byte) (s : State) : rxAppendAll (xs ++ ys) s = rxAppendAll ys (rxAppendAll xs s) := by
  induction xs generalizing s with
  | nil => rfl
  | cons b rest ih => exact ih _

/-- R166: a run of appends is the appends of its bytes. -/
theorem rxAppendRun_eq (n : Nat) (b : Byte) (s : State) : rxAppendRun n b s = rxAppendAll (List.replicate n b) s := by
  induction n generalizing s with
  | zero => rfl
  | succ n ih => exact ih _

/-- R171: what `Append` does over a byte sequence. Bytes past the capacity are dropped and set the overflow flag; the accumulator takes
the bytes of the buffer two behind the fill length; nothing but the assembly state changes. -/
theorem rxAppendAll_eq (bytes : List Byte) {s : State} (hlen : s.rxLen ≤ s.cfg.rxCapacity) (hwf : Memory.wf s.rxBuf = true) :
    ∃ buf : Memory,
      rxAppendAll bytes s =
        { s with
          rxBuf := buf
          rxLen := min s.cfg.rxCapacity (s.rxLen + bytes.length)
          rxOvf := s.rxOvf || decide (s.cfg.rxCapacity < s.rxLen + bytes.length)
          rxCrc := crcFold s.cfg s.rxCrc
            (Memory.bytes buf (s.rxLen - 2) (min s.cfg.rxCapacity (s.rxLen + bytes.length) - 2 - (s.rxLen - 2))) } ∧
      Memory.wf buf = true ∧
      (Memory.within s.cfg.rxCapacity s.rxBuf = true → Memory.within s.cfg.rxCapacity buf = true) ∧
      ∀ k, Memory.read buf k =
        if s.rxLen ≤ k ∧ k < min s.cfg.rxCapacity (s.rxLen + bytes.length) then bytes.getD (k - s.rxLen) 0x00
        else Memory.read s.rxBuf k := by
  induction bytes generalizing s with
  | nil =>
    have h1 : min s.cfg.rxCapacity s.rxLen = s.rxLen := by omega
    have h2 : decide (s.cfg.rxCapacity < s.rxLen) = false := by simpa using hlen
    refine ⟨s.rxBuf, ?_, hwf, fun h => h, fun k => ?_⟩
    · simp [rxAppendAll, h1, h2, Memory.bytes]
    · rw [if_neg (by simp only [List.length_nil]; omega)]
  | cons b rest ih =>
    by_cases hroom : s.rxLen < s.cfg.rxCapacity
    · have e : rxAppend b s =
          { s with
            rxBuf := Memory.write s.rxBuf s.rxLen b
            rxLen := s.rxLen + 1
            rxCrc := if 2 ≤ s.rxLen then crcStep s.cfg s.rxCrc (Memory.read (Memory.write s.rxBuf s.rxLen b) (s.rxLen - 2))
              else s.rxCrc } := by
        rw [rxAppend, if_pos hroom]
      obtain ⟨buf, h1, h2, h3, h4⟩ := ih (s := rxAppend b s) (by rw [e]; exact hroom) (by rw [e]; exact Memory.wf_write _ _ hwf)
      rw [e] at h1 h3 h4
      simp only at h1 h3 h4
      have hcount : s.rxLen + 1 + rest.length = s.rxLen + (b :: rest).length := by simp only [List.length_cons]; omega
      rw [hcount] at h1 h4
      refine ⟨buf, ?_, h2, fun h => h3 (Memory.within_write b hroom h), fun k => ?_⟩
      · rw [rxAppendAll, e, h1]
        congr 1
        by_cases h2le : 2 ≤ s.rxLen
        · have hn : min s.cfg.rxCapacity (s.rxLen + (b :: rest).length) - 2 - (s.rxLen - 2) =
              min s.cfg.rxCapacity (s.rxLen + (b :: rest).length) - 2 - (s.rxLen + 1 - 2) + 1 := by
            simp only [List.length_cons]
            omega
          rw [if_pos h2le, hn, Memory.bytes, crcFold_cons]
          have hr : Memory.read buf (s.rxLen - 2) = Memory.read (Memory.write s.rxBuf s.rxLen b) (s.rxLen - 2) := by
            rw [h4, if_neg (by omega)]
          have hs : s.rxLen + 1 - 2 = s.rxLen - 2 + 1 := by omega
          rw [hr, hs]
        · have hs : s.rxLen + 1 - 2 = s.rxLen - 2 := by omega
          rw [if_neg h2le, hs]
      · rw [h4]
        by_cases hk : k = s.rxLen
        · subst hk
          rw [if_neg (by omega), if_pos (by simp only [List.length_cons]; omega), Memory.read_write_same hwf]
          simp
        · rw [Memory.read_write_ne _ _ hk]
          by_cases hin : s.rxLen + 1 ≤ k ∧ k < min s.cfg.rxCapacity (s.rxLen + (b :: rest).length)
          · have hk' : k - s.rxLen = (k - (s.rxLen + 1)) + 1 := by omega
            rw [if_pos hin, if_pos (by omega), hk', List.getD_cons_succ]
          · rw [if_neg hin, if_neg (by omega)]
    · have e : rxAppend b s = { s with rxOvf := true } := by rw [rxAppend, if_neg hroom]
      obtain ⟨buf, h1, h2, h3, h4⟩ := ih (s := rxAppend b s) (by rw [e]; exact hlen) (by rw [e]; exact hwf)
      rw [e] at h1 h3 h4
      simp only at h1 h3 h4
      have hc : s.cfg.rxCapacity = s.rxLen := by omega
      have m1 : min s.cfg.rxCapacity (s.rxLen + rest.length) = s.cfg.rxCapacity := by omega
      have m2 : min s.cfg.rxCapacity (s.rxLen + (b :: rest).length) = s.cfg.rxCapacity := by
        simp only [List.length_cons]
        omega
      rw [m1] at h1 h4
      refine ⟨buf, ?_, h2, h3, fun k => ?_⟩
      · rw [rxAppendAll, e, h1, m2]
        have hd : decide (s.cfg.rxCapacity < s.rxLen + (b :: rest).length) = true := by
          simp only [List.length_cons, decide_eq_true_eq]
          omega
        rw [hd]
        simp
      · rw [h4, m2, if_neg (by omega), if_neg (by omega)]

/-- `Append` changes the assembly state only, in every state. -/
theorem rxAppendAll_frame (bytes : List Byte) (s : State) :
    ∃ crc len buf ovf, rxAppendAll bytes s = { s with rxCrc := crc, rxLen := len, rxBuf := buf, rxOvf := ovf } := by
  induction bytes generalizing s with
  | nil => exact ⟨_, _, _, _, rfl⟩
  | cons b rest ih =>
    obtain ⟨crc, len, buf, ovf, h⟩ := ih (rxAppend b s)
    refine ⟨crc, len, buf, ovf, ?_⟩
    rw [rxAppendAll, h, rxAppend]
    split <;> rfl

/-! ### What a completion leaves alone -/

/-- R172: a completion changes the events, the counters, the last sequence and the assembly state, and nothing else. -/
theorem rxComplete_eq (s : State) :
    rxComplete s =
      { s with
        rxLen := 0
        rxOvf := false
        rxCrc := s.cfg.crcInit
        good := (rxOutcome s).good
        lost := (rxOutcome s).lost
        lastSeq := (rxOutcome s).lastSeq
        evOut := (rxOutcome s).evOut } := by
  unfold rxComplete rxOutcome rxAccept
  split
  · rfl
  · split
    · rfl
    · split <;> rfl

/-- The tables keep their sizes. -/
theorem rxOutcome_lengths (s : State) :
    (rxOutcome s).good.length = s.good.length ∧ (rxOutcome s).lost.length = s.lost.length ∧
      (rxOutcome s).lastSeq.length = s.lastSeq.length := by
  unfold rxOutcome rxAccept
  split
  · exact ⟨rfl, rfl, rfl⟩
  · split
    · exact ⟨rfl, rfl, rfl⟩
    · split
      · exact ⟨rfl, rfl, rfl⟩
      · simp

/-- A completion's outcome appends at most one event. -/
theorem rxOutcome_events (s : State) : ∃ events, events.length ≤ 1 ∧ (rxOutcome s).evOut = s.evOut ++ events := by
  unfold rxOutcome rxAccept
  split
  · exact ⟨[_], by simp, rfl⟩
  · split
    · exact ⟨[], by simp, by simp⟩
    · split
      · exact ⟨[_], by simp, rfl⟩
      · exact ⟨[_], by simp, rfl⟩

/-! ### RX_FEED, branch by branch (R160) -/

theorem execRxFeed_delimiter_outside {s : State} (h : s.rxBusy = false) :
    execRxFeed 0x00 s = .next { s with delim := delimUp s.delim } := by
  simp [execRxFeed, rxDelimiter, h]

theorem execRxFeed_delimiter_first {s : State} (h : s.rxBusy = true) (hd : s.delim = 0) :
    execRxFeed 0x00 s = .next { s with delim := 1 } := by
  simp [execRxFeed, rxDelimiter, h, hd, delimUp]

theorem execRxFeed_delimiter_completes {s : State} (h : s.rxBusy = true) (hd : s.delim ≠ 0) :
    execRxFeed 0x00 s = .next { rxComplete { s with delim := 2 } with rxBusy := false } := by
  simp [execRxFeed, rxDelimiter, h, hd, delimUp]

theorem execRxFeed_idle {s : State} {c : Byte} (hc : c ≠ 0x00) (h : s.rxBusy = false) (hd : s.delim ≠ 2) :
    execRxFeed c s = .next { s with delim := 0 } := by
  rw [execRxFeed, if_neg hc]
  simp [rxNonDelimiter, h, hd]

theorem execRxFeed_marker {s : State} {c : Byte} (hc : c ≠ 0x00) (h : s.rxBusy = false) (hd : s.delim = 2) :
    execRxFeed c s = .next { rxMarker c s with delim := 0 } := by
  rw [execRxFeed, if_neg hc]
  simp [rxNonDelimiter, h, hd]

theorem execRxFeed_chunk {s : State} {c : Byte} (hc : c ≠ 0x00) (h : s.rxBusy = true) (hd : s.delim = 1) :
    execRxFeed c s = .next { rxAppendAll (List.replicate c.toNat 0x00) s with delim := 0 } := by
  rw [execRxFeed, if_neg hc]
  simp [rxNonDelimiter, h, hd, rxAppendRun_eq]

theorem execRxFeed_literal {s : State} {c : Byte} (hc : c ≠ 0x00) (h : s.rxBusy = true) (hd : s.delim ≠ 1) :
    execRxFeed c s = .next { rxAppendAll [c] s with delim := 0 } := by
  rw [execRxFeed, if_neg hc]
  simp [rxNonDelimiter, h, hd, rxAppendAll]

/-- Everything RX_FEED can do, in every state: it answers a next state, and leaves the configuration, the transmit path, the responses,
the fault mark and the inputs alone, and appends at most one event. -/
theorem execRxFeed_frame (c : Byte) (s : State) :
    ∃ busy delim node crc len buf ovf last good lost events,
      events.length ≤ 1 ∧
      execRxFeed c s = .next
        { s with
          rxBusy := busy, delim := delim, rxNode := node, rxCrc := crc, rxLen := len, rxBuf := buf, rxOvf := ovf
          lastSeq := last, good := good, lost := lost, evOut := s.evOut ++ events } := by
  by_cases hc : c = 0x00
  · subst hc
    cases h : s.rxBusy with
    | false => exact ⟨_, _, _, _, _, _, _, _, _, _, [], by simp, by rw [execRxFeed_delimiter_outside h]; rw [List.append_nil]⟩
    | true =>
      by_cases hd : s.delim = 0
      · exact ⟨_, _, _, _, _, _, _, _, _, _, [], by simp, by rw [execRxFeed_delimiter_first h hd]; rw [List.append_nil]⟩
      · obtain ⟨events, hl, he⟩ := rxOutcome_events { s with delim := 2 }
        refine ⟨false, 2, s.rxNode, s.cfg.crcInit, 0, s.rxBuf, false, (rxOutcome { s with delim := 2 }).lastSeq,
          (rxOutcome { s with delim := 2 }).good, (rxOutcome { s with delim := 2 }).lost, events, hl, ?_⟩
        rw [execRxFeed_delimiter_completes h hd, rxComplete_eq, he]
  · cases h : s.rxBusy with
    | false =>
      by_cases hd : s.delim = 2
      · rw [execRxFeed_marker hc h hd, rxMarker]
        split
        · exact ⟨_, _, _, _, _, _, _, _, _, _, [], by simp, by rw [List.append_nil]⟩
        · exact ⟨_, _, _, _, _, _, _, _, _, _, [.error .addr (infoOfByte c)], by simp, rfl⟩
      · exact ⟨_, _, _, _, _, _, _, _, _, _, [], by simp, by rw [execRxFeed_idle hc h hd]; rw [List.append_nil]⟩
    | true =>
      by_cases hd : s.delim = 1
      · obtain ⟨crc, len, buf, ovf, e⟩ := rxAppendAll_frame (List.replicate c.toNat 0x00) s
        exact ⟨_, _, _, _, _, _, _, _, _, _, [], by simp, by rw [execRxFeed_chunk hc h hd, e]; rw [List.append_nil]⟩
      · obtain ⟨crc, len, buf, ovf, e⟩ := rxAppendAll_frame [c] s
        exact ⟨_, _, _, _, _, _, _, _, _, _, [], by simp, by rw [execRxFeed_literal hc h hd, e]; rw [List.append_nil]⟩

end Sys2Proof.Machine
end

