-- ==== Sys2Proof/Laws/Step.lean ====
section
/-! SUPPORT. Everything a step and `exec` can do, said once. -/

namespace Sys2Proof.Machine

/-- What a step that answers a next state did. -/
theorem step_cases {s t : State} (h : step s = .next t) :
    (∃ c rest, s.pending = .reset c :: rest ∧ c.Legal ∧ t = { State.resetWith c with pending := rest }) ∨
    (∃ w data rest i, s.pending = .command w data :: rest ∧ s.fault = none ∧ decode w data = .ok i ∧
      exec i { s with pending := rest } = .next t) ∨
    (∃ w data rest e, s.pending = .command w data :: rest ∧ s.fault = none ∧ decode w data = .error e ∧
      t = raise .illegalCommand { s with pending := rest }) ∨
    (s.pending = [] ∧ s.fault = none ∧ t = s) := by
  unfold step at h
  split at h
  · rename_i _ _ c rest hp
    unfold applyReset at h
    split at h
    · rename_i hl
      exact .inl ⟨c, rest, hp, hl, by injection h with h; exact h.symm⟩
    · cases h
  · cases h
  · rename_i w data rest hp hf
    unfold runCommand at h
    split at h
    · rename_i i hi
      exact .inr (.inl ⟨w, data, rest, i, hp, hf, hi, h⟩)
    · rename_i e he
      exact .inr (.inr (.inl ⟨w, data, rest, e, hp, hf, he, by injection h with h; exact h.symm⟩))
  · cases h
  · rename_i hp hf
    exact .inr (.inr (.inr ⟨hp, hf, by injection h with h; exact h.symm⟩))

/-- A sound state stays sound when only the inputs and the fault mark differ. -/
theorem State.Inv.of_inputs {s : State} (h : s.Inv) (pending : List HostInput) (fault : Option Fault) :
    State.Inv { s with pending := pending, fault := fault } :=
  ⟨h.1, h.2.1, h.2.2⟩

/-! ### `exec`, command by command -/

theorem exec_txBegin_valid {s : State} {node : Byte} (hdr : Byte) (h : node.toNat < s.cfg.maxNodes) :
    exec (.txBegin node hdr) s =
      .next (escPutAll [markerOf node, tableGet s.txSeq node, hdr] (openFrame node s)) := by
  simp only [exec, execTxBegin, validNode, decide_eq_true h, if_true]

theorem exec_txBegin_bad {s : State} {node : Byte} (hdr : Byte) (h : s.cfg.maxNodes ≤ node.toNat) :
    exec (.txBegin node hdr) s = .next (raise .badNode s) := by
  simp [exec, execTxBegin, validNode, Nat.not_lt.2 h]

theorem exec_txWrite_sends {s : State} {data : List Byte} (ha : s.txActive = true) (h : data.length ≤ s.cfg.maxTransmit) :
    exec (.txWrite data) s = .next (escPutAll data s) := by
  simp [exec, execTxWrite, oversized, ha, Nat.not_lt.2 h]

theorem exec_txWrite_oversized {s : State} {data : List Byte} (ha : s.txActive = true) (h : s.cfg.maxTransmit < data.length) :
    exec (.txWrite data) s = .next (report .txOversize (infoOfCount data.length) s) := by
  simp [exec, execTxWrite, oversized, ha, h]

theorem exec_txWrite_inactive {s : State} (data : List Byte) (ha : s.txActive = false) :
    exec (.txWrite data) s = .next (raise .txNotActive s) := by
  simp [exec, execTxWrite, ha]

theorem exec_txEnd_active {s : State} (ha : s.txActive = true) : exec .txEnd s = .next (closeFrame s) := by
  simp [exec, execTxEnd, ha]

theorem exec_txEnd_inactive {s : State} (ha : s.txActive = false) : exec .txEnd s = .next (raise .txNotActive s) := by
  simp [exec, execTxEnd, ha]

theorem exec_rxStatus_valid {s : State} {node : Byte} (h : node.toNat < s.cfg.maxNodes) :
    exec (.rxStatus node) s =
      .next
        { respond (statusWord (tableGet s.good node) (tableGet s.lost node)) s with
          good := tableSet s.good node 0
          lost := tableSet s.lost node 0 } := by
  simp only [exec, execRxStatus, validNode, decide_eq_true h, if_true]

theorem exec_rxStatus_bad {s : State} {node : Byte} (h : s.cfg.maxNodes ≤ node.toNat) :
    exec (.rxStatus node) s = .next (raise .badNode s) := by
  simp [exec, execRxStatus, validNode, Nat.not_lt.2 h]

/-! ### The decoder's states (42_receive.md R161) -/

theorem decoderState_receiving {s : State} : decoderState s = .receiving ↔ s.rxBusy = true := by
  unfold decoderState
  cases s.rxBusy
  · by_cases h : s.delim = 2 <;> simp [h]
  · simp

theorem decoderState_addressing {s : State} : decoderState s = .addressing ↔ s.rxBusy = false ∧ s.delim = 2 := by
  unfold decoderState
  cases s.rxBusy <;> simp

theorem decoderState_idle {s : State} : decoderState s = .idle ↔ s.rxBusy = false ∧ s.delim ≠ 2 := by
  unfold decoderState
  cases s.rxBusy <;> simp

/-- R80: a marker names its node, and a node its marker. -/
@[simp] theorem nodeOf_markerOf (node : Byte) : nodeOf (markerOf node) = node := by
  apply BitVec.eq_of_toNat_eq
  simp [nodeOf, markerOf]

@[simp] theorem markerOf_nodeOf (marker : Byte) : markerOf (nodeOf marker) = marker := nodeOf_markerOf marker

/-- R7, R80: a valid node's marker is no delimiter. -/
theorem markerOf_ne_zero {c : Config} (hl : c.Legal) {node : Byte} (h : node.toNat < c.maxNodes) : markerOf node ≠ 0x00 := by
  intro e
  have hn := congrArg BitVec.toNat e
  have hle := hl.2.1
  simp [markerOf, BitVec.toNat_sub] at hn
  omega

end Sys2Proof.Machine
end

