-- ==== Sys2Proof/Tests/Slice0.lean ====
section
/-! SUPPORT. Tests with expected values from the spec's examples and test vectors (95_test_vectors.md), and a witness for the
hypotheses of every obligation, one for each of its clauses. -/

namespace Sys2Proof.Tests

open Sys2Proof Sys2Proof.Machine

/-- The next state of an outcome, if it is one. -/
def after (o : Host.Outcome State Fault Refusal) : Option State :=
  match o with
  | .next s => some s
  | .fault _ => none
  | .refused _ => none

/-- A small configuration: nodes 0 to 2, writes up to 4 bytes, a buffer of 8. -/
def small : Config where
  maxNodes := 3
  broadcastNode := 2
  maxTransmit := 4
  rxCapacity := 8
  localNode := 1
  crcInit := 0xFFFF
  crcAlgorithm := .reference

/-- Right after reset with the small configuration: no frame open, decoder Idle. -/
def fresh : State := State.resetWith small

/-- A frame is open, with this run pending. -/
def opened (run : Byte) : State := { fresh with txActive := true, needBreak := false, escRun := run }

/-- The decoder is in Addressing. -/
def addressed : State := { fresh with delim := 2 }

/-- The decoder is Receiving from node 1 with these bytes assembled. -/
def receiving (delim : Fin 3) (len : Nat) (buf : Memory) (crc : Half) : State :=
  { fresh with rxBusy := true, delim := delim, rxNode := 1, rxLen := len, rxBuf := buf, rxCrc := crc }

/-- TV55: sequence 0 and the CRC `0xD041`, one delimiter seen. -/
def shortestFrame : State := receiving 1 3 [(1, 0x41), (2, 0xD0)] 0xD041

/-- The assembly buffer is full and has overflowed. -/
def overflowed : State := { receiving 1 8 [] 0xFFFF with rxOvf := true }

/-! ### Well-formedness -/

theorem wellFormed_txWrite (data : List Byte) : (Instr.txWrite data).wellFormed = decide (data.length < 65536) := rfl

theorem test_wellFormed_longest_write : (Instr.txWrite (List.replicate 65535 0x00)).wellFormed = true := by
  rw [wellFormed_txWrite, List.length_replicate]
  decide

/-- 30_encoding.md R74: `LEN` has 16 bits, so a list of 65536 bytes stands for no word. -/
theorem test_wellFormed_refuses_longer_write : (Instr.txWrite (List.replicate 65536 0x00)).wellFormed = false := by
  rw [wellFormed_txWrite, List.length_replicate]
  decide

/-! ### Decoding and encoding (words written out from 30_encoding.md R71, R72; rejected words from TV80 to TV91) -/

theorem test_decode_txBegin : decode 0b0001_0000_00000101_00100010_00000000#32 [] = .ok (.txBegin 5 0x22) := by decide
theorem test_decode_txWrite : decode 0b0010_0000_00000000_0000000000000010#32 [0x00, 0x09] = .ok (.txWrite [0x00, 0x09]) := by
  decide
theorem test_decode_txEnd : decode 0b0011_0000_000000000000000000000000#32 [] = .ok .txEnd := by decide
theorem test_decode_txResync : decode 0b0100_0000_000000000000000000000000#32 [] = .ok .txResync := by decide
theorem test_decode_rxFeed : decode 0b0101_0000_0000000000000000_11111110#32 [] = .ok (.rxFeed 0xFE) := by decide
theorem test_decode_rxStatus : decode 0b0110_0000_00111111_0000000000000000#32 [] = .ok (.rxStatus 63) := by decide

theorem test_decode_reserved_opcodes :
    decode 0x00000000#32 [] = .error .reservedOpcode ∧ decode 0x70000000#32 [] = .error .reservedOpcode ∧
      decode 0xF0000000#32 [] = .error .reservedOpcode := by decide
theorem test_decode_must_be_zero :
    decode 0x01000000#32 [] = .error .nonZeroReserved ∧ decode 0x22000000#32 [] = .error .nonZeroReserved ∧
      decode 0x10011001#32 [] = .error .nonZeroReserved ∧ decode 0x30000001#32 [] = .error .nonZeroReserved ∧
      decode 0x40000001#32 [] = .error .nonZeroReserved ∧ decode 0x50000100#32 [] = .error .nonZeroReserved ∧
      decode 0x60010001#32 [] = .error .nonZeroReserved ∧ decode 0x20010000#32 [] = .error .nonZeroReserved := by decide
theorem test_decode_wrong_list :
    decode 0x20000002#32 [0x01] = .error .wrongLength ∧ decode 0x30000000#32 [0x01] = .error .unexpectedData := by decide

theorem test_encode_txBegin : encode (.txBegin 1 0x10) = (0x10011000#32, []) := by decide
theorem test_encode_txWrite : encode (.txWrite [0x01, 0x02, 0x03]) = (0x20000003#32, [0x01, 0x02, 0x03]) := by decide
theorem test_encode_txEnd : encode .txEnd = (0x30000000#32, []) := by decide
theorem test_encode_txResync : encode .txResync = (0x40000000#32, []) := by decide
theorem test_encode_rxFeed : encode (.rxFeed 0xFD) = (0x500000FD#32, []) := by decide
theorem test_encode_rxStatus : encode (.rxStatus 2) = (0x60020000#32, []) := by decide

theorem test_decodeTableWord :
    decodeTableWord 32 0x10003F00 = some (.txBegin 0 0x3F) ∧ decodeTableWord 32 0x20000002 = some (.txWrite [0x00, 0x00]) ∧
      decodeTableWord 32 0x00000000 = none := by decide

/-! ### Assembly (R86) -/

theorem test_assembly_begin : parseLine "TX_BEGIN  5, 0x22 ; open".toList = some (.txBegin 5 0x22) := by decide +kernel
theorem test_assembly_write : parseLine "TX_WRITE [00 0a FF]".toList = some (.txWrite [0x00, 0x0A, 0xFF]) := by decide +kernel

/-! ### The CRC (R110, TV5, TV8) -/

theorem test_crc_check_value :
    crcFold referenceConfig 0xFFFF [0x31, 0x32, 0x33, 0x34, 0x35, 0x36, 0x37, 0x38, 0x39] = 0x4B37 := by decide +kernel
theorem test_crc_frame : crcFold referenceConfig 0xFFFF [0xFE, 0x00, 0x10, 0x01, 0x02, 0x03] = 0xA401 := by decide +kernel

/-! ### One step of each command -/

/-- TV20. -/
theorem test_txBegin_first_frame :
    (after (exec (.txBegin 1 0x10) State.reset)).map (fun t => (t.txOut, t.txCrc, t.escRun, tableGet t.txSeq 1)) =
      some (.start :: [0x00, 0x00, 0xFE, 0x00, 0x01, 0x10].map .byte, 0xFC11, 0, 1) := by decide +kernel

/-- TV38: a zero sequence and a zero header are pending. -/
theorem test_txBegin_zero_header :
    (after (exec (.txBegin 1 0x00) State.reset)).map (fun t => (t.txOut, t.txCrc, t.escRun, t.needBreak)) =
      some (.start :: [0x00, 0x00, 0xFE].map .byte, 0x3010, 2, false) := by decide +kernel

/-- TV21, its TX_WRITE. -/
theorem test_txWrite_literals :
    (after (exec (.txWrite [0x01, 0x02, 0x03]) { opened 0 with txCrc := 0xFC11 })).map (fun t => (t.txOut, t.txCrc)) =
      some ([0x01, 0x02, 0x03].map .byte, 0xA401) := by decide +kernel

/-- R121: the 255th delimiter sends a full chunk, and the next one starts a new run. -/
theorem test_txWrite_full_chunk :
    (after (exec (.txWrite [0x00, 0x00]) (opened 254))).map (fun t => (t.txOut, t.escRun)) =
      some ([0x00, 0xFF].map .byte, 1) := by decide

/-- TV21, its TX_END: the CRC goes low byte first. -/
theorem test_txEnd_crc_order :
    (after (exec .txEnd { opened 0 with txCrc := 0xA401 })).map (fun t => (t.txOut, t.txActive)) =
      some ([0x01, 0xA4, 0x00, 0x00].map .byte ++ [.stop], false) := by decide

/-- TV33, its TX_END: a zero high byte is a run of one, flushed before the break. -/
theorem test_txEnd_zero_crc_byte :
    (after (exec .txEnd { opened 0 with txCrc := 0x00FC })).map (fun t => (t.txOut, t.escRun)) =
      some ([0xFC, 0x00, 0x01, 0x00, 0x00].map .byte ++ [.stop], 0) := by decide

/-- R151: inside a frame, TX_RESYNC leaves the frame open. -/
theorem test_txResync_in_frame :
    (after (exec .txResync (opened 3))).map (fun t => (t.needBreak, t.txActive, t.escRun, t.txOut)) =
      some (true, true, 3, []) := by decide

/-- TV55: the shortest frame is accepted, with an empty list. -/
theorem test_rxFeed_accepts_shortest_frame :
    (after (exec (.rxFeed 0x00) shortestFrame)).map (fun t => (t.evOut, t.good, t.lost, t.lastSeq, t.rxLen)) =
      some ([.frame 1 []], [0, 1, 0], [0, 0, 0], [0xFF, 0x00, 0xFF], 0) := by decide

/-- R166, R171: an escape pair that runs past the capacity fills the buffer and overflows. -/
theorem test_rxFeed_chunk_overflows :
    (after (exec (.rxFeed 0x03) (receiving 1 6 [(0, 0x11)] 0xFFFF))).map (fun t => (t.rxLen, t.rxOvf, t.delim, t.evOut)) =
      some (8, true, 0, []) := by decide

/-- TV51: good in the high half, lost in the low half. -/
theorem test_rxStatus_word :
    (after (exec (.rxStatus 1) { fresh with good := [0, 3, 0], lost := [9, 7, 9] })).map (fun t => (t.respOut, t.good, t.lost)) =
      some ([0x00030007], [0, 0, 0], [9, 0, 9]) := by decide

/-! ### The step -/

/-- TV80: the all-zero word sets the mark, takes the command and changes nothing else. -/
theorem test_step_all_zero_word :
    after (step { opened 3 with pending := [.command 0 []] }) = some { opened 3 with fault := some .illegalCommand } := by decide

/-- TV97: the table's TX_RESYNC as the first instruction after reset. -/
theorem test_withFetchWord_runs :
    after (step (State.reset.withFetchWord 32 0x40000000)) = some { State.reset with needBreak := true } := by decide +kernel

theorem test_reset_memory_wf : Memory.wf State.reset.rxBuf = true := by decide

/-! ### Witnesses: states and operands that meet the hypotheses of the obligations -/

theorem witness_DecodeOfEncode : (Instr.txWrite (List.replicate 65535 0x00)).wellFormed = true :=
  test_wellFormed_longest_write
theorem witness_EncodeOfDecode : decode 0x20000001#32 [0xAA] = .ok (.txWrite [0xAA]) := by decide
theorem witness_IllegalCommandStops_word :
    ({ fresh with pending := [.command 0x70000000 []] } : State).fault = none ∧ ¬ LegalWord 0x70000000#32 := by decide
theorem witness_IllegalCommandStops_list :
    ([0x01] : List Byte).length ≠
      if 0x20000002#32 &&& 0xF0000000#32 = 0x20000000#32 then (0x20000002#32 &&& 0x0000FFFF#32).toNat else 0 := by decide
theorem witness_IllegalCommandStops_rest : ∀ c more, ([] : List HostInput) ≠ .reset c :: more := by simp
theorem witness_StepRunsDecodedCommand :
    ({ fresh with pending := [.command 0x30000000 []] } : State).fault = none ∧ decode 0x30000000#32 [] = .ok .txEnd := by decide
theorem witness_MarkedStateStops_command (c : Config) (rest : List HostInput) :
    ({ fresh with fault := some .badNode, pending := [.command 0x30000000 []] } : State).fault = some .badNode ∧
      ({ fresh with fault := some .badNode, pending := [.command 0x30000000 []] } : State).pending ≠ .reset c :: rest := by
  simp
theorem witness_MarkedStateStops_no_input (c : Config) (rest : List HostInput) :
    ({ fresh with fault := some .txNotActive } : State).pending ≠ .reset c :: rest := by
  simp [fresh, State.resetWith]
theorem witness_BlockWaitsForInput : State.reset.fault = none ∧ State.reset.pending = [] := by decide
theorem witness_ResetLeavesTheResetValues :
    small.Legal ∧ ({ opened 3 with pending := [.reset small] } : State).fault = none := by decide
theorem witness_ResetLeavesTheResetValues_largest :
    ({ small with maxNodes := 255, broadcastNode := 254, localNode := 254, rxCapacity := 65535, maxTransmit := 65535 } :
      Config).Legal := by decide
theorem witness_ResetForgetsTheState :
    small.Legal ∧ ({ fresh with fault := some .badNode, pending := [.reset small] } : State).pending = [.reset small] ∧
      ({ overflowed with pending := [.reset small] } : State).pending = [.reset small] := by decide
theorem witness_ResetNeedsLegalConfiguration :
    ¬ ({ small with maxNodes := 256 } : Config).Legal ∧ ¬ ({ small with rxCapacity := 2 } : Config).Legal ∧
      ¬ ({ small with localNode := 3 } : Config).Legal := by decide
theorem witness_ResetStateIsSound : small.Legal ∧ referenceConfig.Legal := by decide
theorem witness_StepKeepsSoundState :
    ({ shortestFrame with pending := [.command 0x50000000 []] } : State).Inv ∧
      (after (step { shortestFrame with pending := [.command 0x50000000 []] })).isSome = true := by decide
theorem witness_StepKeepsReceiveCrc :
    ({ receiving 0 3 [(1, 0x41), (2, 0xD0)] 0xD041 with pending := [.command 0x50000007 []] } : State).RxCrcInv ∧
      (after (step { receiving 0 3 [(1, 0x41), (2, 0xD0)] 0xD041 with pending := [.command 0x50000007 []] })).isSome = true := by
  decide +kernel
theorem witness_FaultsHaveTheirCauses :
    fresh.fault = none ∧ (after (exec (.rxStatus 3) fresh)).bind (·.fault) = some .badNode ∧
      (after (exec .txEnd fresh)).bind (·.fault) = some .txNotActive := by decide
theorem witness_BadNodeRaisesItsFault : fresh.cfg.maxNodes ≤ (3#8 : Byte).toNat := by decide
theorem witness_NoOpenFrameRaisesItsFault : fresh.txActive = false := by decide
theorem witness_TracesOnlyGrow : (after (exec (.rxFeed 0x00) shortestFrame)).isSome = true := by decide
theorem witness_PathsAreDisjoint_transmit :
    isTransmit .txEnd = true ∧ (opened 3).transmitPart = State.transmitPart { opened 3 with rxBusy := true, good := [1, 1, 1] } ∧
      (after (exec .txEnd (opened 3))).isSome = true := ⟨rfl, rfl, rfl⟩
theorem witness_PathsAreDisjoint_receive :
    isTransmit (.rxFeed 0x00) = false ∧
      shortestFrame.receivePart = State.receivePart { shortestFrame with txActive := true, escRun := 3, txCrc := 0x1234 } ∧
      (after (exec (.rxFeed 0x00) shortestFrame)).isSome = true := ⟨rfl, rfl, rfl⟩
theorem witness_BufferPastFillIsUnobservable :
    SameBelowFill (receiving 0 1 [(0, 0x11), (1, 0x22)] 0xFFFF) (receiving 0 1 [(0, 0x11), (2, 0x33)] 0xFFFF) := by decide
theorem witness_TxBeginOpensFrame :
    fresh.cfg.Legal ∧ (2#8 : Byte).toNat < fresh.cfg.maxNodes ∧ fresh.cfg.maxNodes ≤ (3#8 : Byte).toNat := by decide
theorem witness_SequenceCountersAdvance :
    fresh.Inv ∧ (2#8 : Byte).toNat < fresh.cfg.maxNodes ∧ (after (exec (.txBegin 2 0x10) fresh)).isSome = true := by decide
theorem witness_SequenceCountersAdvance_other (node hdr : Byte) :
    Instr.txEnd ≠ .txBegin node hdr ∧ (after (exec .txEnd (opened 3))).isSome = true := ⟨by simp, by decide⟩
theorem witness_TxWriteSendsEscapedBytes_sent :
    (opened 254).escRun.toNat ≤ 254 ∧ (opened 254).txActive = true ∧
      ([0x00, 0x01, 0x00, 0x00] : List Byte).length ≤ (opened 254).cfg.maxTransmit := by decide
theorem witness_TxWriteSendsEscapedBytes_oversized :
    (opened 0).escRun.toNat ≤ 254 ∧ (opened 0).txActive = true ∧
      (opened 0).cfg.maxTransmit < ([0x00, 0x01, 0x00, 0x00, 0x05] : List Byte).length := by decide
theorem witness_TxWriteSendsEscapedBytes_no_frame : fresh.escRun.toNat ≤ 254 ∧ fresh.txActive = false := by decide
theorem witness_OversizedWriteIsOnlyReported :
    (opened 0).txActive = true ∧ (opened 0).cfg.maxTransmit < ([0x01, 0x02, 0x03, 0x04, 0x05] : List Byte).length ∧
      (after (execAll [.txWrite [0x01], .txEnd] (opened 0))).isSome = true ∧
      ([0x01, 0x02, 0x03, 0x04] : List Byte).length = (opened 0).cfg.maxTransmit := by decide
theorem witness_OversizedWriteIsOnlyReported_later :
    ∀ i ∈ ([.txWrite [0x01], .txEnd] : List Instr), i = .txEnd ∨ ∃ more, i = .txWrite more := by simp
theorem witness_SplitWriteIsOneWrite :
    (opened 3).txActive = true ∧ (([0x00, 0x00] : List Byte) ++ [0x00, 0x09]).length ≤ (opened 3).cfg.maxTransmit := by decide
theorem witness_TxEndClosesFrame :
    (opened 254).escRun.toNat ≤ 254 ∧ (opened 254).txActive = true ∧ fresh.txActive = false := by decide
theorem witness_TxResyncAsksForBreak : (2#8 : Byte).toNat < (opened 0).cfg.maxNodes ∧ (opened 0).txActive = true := by decide
theorem witness_FrameOnTheWire :
    fresh.cfg.Legal ∧ fresh.fault = none ∧ (2#8 : Byte).toNat < fresh.cfg.maxNodes ∧
      ∀ data ∈ ([[], [0x00, 0x00, 0x00, 0x09]] : List (List Byte)), data.length ≤ fresh.cfg.maxTransmit := by decide
theorem witness_EscapedBytesHoldNoBreak : escape [0x05, 0x00, 0x00] = [0x05] ++ 0x00 :: [0x02] := by decide
theorem witness_FrameWireLength :
    (opened 3).cfg.Legal ∧ (opened 3).fault = none ∧ (0#8 : Byte).toNat < (opened 3).cfg.maxNodes ∧
      ∀ data ∈ ([[0x00, 0x00, 0x00, 0x09]] : List (List Byte)), data.length ≤ (opened 3).cfg.maxTransmit := by decide
theorem witness_ReferenceCrcResidueIsZero : small.crcAlgorithm = .reference ∧ referenceConfig.crcAlgorithm = .reference := by decide
theorem witness_ChangedLiteralIsCaught :
    addressed.Inv ∧ addressed.fault = none ∧ addressed.cfg.crcAlgorithm = .reference ∧ decoderState addressed = .addressing ∧
      (1#8 : Byte).toNat < addressed.cfg.maxNodes ∧ ([0x00, 0x10, 0x01, 0x02, 0x03] : List Byte).length + 2 ≤ addressed.cfg.rxCapacity ∧
      [0x00, 0x10, 0x01, 0x02, 0x03] ++
          crcBytes (crcFold addressed.cfg addressed.cfg.crcInit (markerOf 1 :: [0x00, 0x10, 0x01, 0x02, 0x03])) =
        ([0x00, 0x10] : List Byte) ++ 0x01 :: [0x02, 0x03, 0x01, 0xA4] ∧
      (0x01#8 : Byte) ≠ 0x00 ∧ (0x03#8 : Byte) ≠ 0x00 ∧ (0x03#8 : Byte) ≠ 0x01 := by decide +kernel
theorem witness_DelimiterOutsideFrame :
    fresh.rxBusy = false ∧ fresh.delim = 0 ∧ State.rxBusy { fresh with delim := 1 } = false ∧ addressed.rxBusy = false ∧
      addressed.delim = 2 := by decide
theorem witness_DelimiterInsideFrame_first :
    (receiving 0 3 [] 0xFFFF).Inv ∧ (receiving 0 3 [] 0xFFFF).rxBusy = true ∧ (receiving 0 3 [] 0xFFFF).delim = 0 := by decide
theorem witness_DelimiterInsideFrame_overflow :
    overflowed.Inv ∧ overflowed.rxBusy = true ∧ overflowed.delim = 1 ∧ overflowed.rxOvf = true := by decide
theorem witness_DelimiterInsideFrame_short :
    (receiving 1 2 [] 0xFFFF).Inv ∧ (receiving 1 2 [] 0xFFFF).rxOvf = false ∧ (receiving 1 2 [] 0xFFFF).rxLen < 3 := by decide
theorem witness_DelimiterInsideFrame_crc :
    (receiving 1 3 [] 0xD041).Inv ∧ ¬ (receiving 1 3 [] 0xD041).rxLen < 3 ∧
      Memory.read (receiving 1 3 [] 0xD041).rxBuf 2 ++ Memory.read (receiving 1 3 [] 0xD041).rxBuf 1 ≠
        (receiving 1 3 [] 0xD041).rxCrc := by decide
theorem witness_AcceptedFrameIsCounted :
    shortestFrame.Inv ∧ shortestFrame.rxBusy = true ∧ shortestFrame.delim = 1 ∧ shortestFrame.rxOvf = false ∧
      3 ≤ shortestFrame.rxLen ∧
      Memory.read shortestFrame.rxBuf (shortestFrame.rxLen - 1) ++ Memory.read shortestFrame.rxBuf (shortestFrame.rxLen - 2) =
        shortestFrame.rxCrc ∧
      Memory.read shortestFrame.rxBuf 0 = tableGet shortestFrame.lastSeq shortestFrame.rxNode + 1 := by decide
theorem witness_AcceptedFrameIsCounted_repeated :
    State.Inv { shortestFrame with lastSeq := [0xFF, 0x00, 0xFF] } ∧
      Memory.read shortestFrame.rxBuf 0 = tableGet [0xFF, 0x00#8, 0xFF] shortestFrame.rxNode := by decide
theorem witness_AcceptedFrameIsCounted_behind :
    State.Inv { shortestFrame with lastSeq := [0xFF, 0x01, 0xFF] } ∧
      Memory.read shortestFrame.rxBuf 0 = tableGet [0xFF, 0x01#8, 0xFF] shortestFrame.rxNode - 1 := by decide
theorem witness_IdleIgnoresBytes : decoderState fresh = .idle ∧ (0xFE#8 : Byte) ≠ 0x00 := by decide
theorem witness_MarkerInAddressing :
    decoderState addressed = .addressing ∧ 255 - (0xFD#8 : Byte).toNat < addressed.cfg.maxNodes ∧
      addressed.cfg.maxNodes ≤ 255 - (0xFC#8 : Byte).toNat := by decide
theorem witness_EscapePairAppendsZeros :
    (receiving 1 6 [] 0xFFFF).Inv ∧ (receiving 1 6 [] 0xFFFF).rxBusy = true ∧ (receiving 1 6 [] 0xFFFF).delim = 1 ∧
      (0xFF#8 : Byte) ≠ 0x00 := by decide
theorem witness_LiteralIsAppended :
    (receiving 0 7 [] 0xFFFF).Inv ∧ (receiving 0 7 [] 0xFFFF).rxLen < (receiving 0 7 [] 0xFFFF).cfg.rxCapacity ∧
      (receiving 0 8 [] 0xFFFF).Inv ∧ (receiving 0 8 [] 0xFFFF).rxLen = (receiving 0 8 [] 0xFFFF).cfg.rxCapacity := by decide
theorem witness_AtMostOneEventPerByte :
    (after (exec (.rxFeed 0x05) addressed)).isSome = true ∧ (after (exec (.rxFeed 0x00) overflowed)).isSome = true := by decide
theorem witness_TwoDelimitersResynchronise : decoderState (receiving 0 3 [] 0xFFFF) = .receiving := by decide
theorem witness_ErrorsLeaveTheBlockReady :
    (after (exec (.rxFeed 0x05) addressed)).map (·.evOut) = some (addressed.evOut ++ [.error .addr 0x0005]) ∧
      (after (exec (.rxFeed 0x00) overflowed)).map (·.evOut) = some (overflowed.evOut ++ [.error .overflow 8]) ∧
      (after (exec (.rxFeed 0x00) (receiving 1 3 [] 0xD041))).map (·.evOut) = some ([] ++ [.error .crc 0x0000]) ∧
      (after (exec (.txWrite [0x01, 0x02, 0x03, 0x04, 0x05]) (opened 0))).map (·.evOut) =
        some ([] ++ [.error .txOversize 5]) := by decide
theorem witness_DecoderRestoresFrameBytes :
    addressed.Inv ∧ addressed.fault = none ∧ decoderState addressed = .addressing ∧ (2#8 : Byte).toNat < addressed.cfg.maxNodes ∧
      (List.replicate 8 (0x00#8 : Byte)).length ≤ addressed.cfg.rxCapacity := by decide
theorem witness_OverlongFrameReportsOnce :
    addressed.Inv ∧ addressed.fault = none ∧ decoderState addressed = .addressing ∧ (0#8 : Byte).toNat < addressed.cfg.maxNodes ∧
      addressed.cfg.rxCapacity < (List.replicate 9 (0x00#8 : Byte)).length := by decide
theorem witness_RoundTripDeliversTheFrame :
    fresh.Inv ∧ addressed.Inv ∧ addressed.cfg = fresh.cfg ∧ fresh.fault = none ∧ addressed.fault = none := by decide
theorem witness_RoundTripDeliversTheFrame_break :
    fresh.rxBusy = false ∧ addressed.rxBusy = false ∧ decoderState addressed = .addressing ∧ fresh.needBreak = true := by decide
theorem witness_RoundTripDeliversTheFrame_writes : (2#8 : Byte).toNat < fresh.cfg.maxNodes ∧
    (∀ data ∈ ([[0x00, 0x00], [0x00, 0x09]] : List (List Byte)), data.length ≤ fresh.cfg.maxTransmit) ∧
      ([[0x00, 0x00], [0x00, 0x09]] : List (List Byte)).flatten.length + 4 ≤ fresh.cfg.rxCapacity := by decide
theorem witness_RxStatusReadsAndClears :
    (2#8 : Byte).toNat < fresh.cfg.maxNodes ∧ fresh.cfg.maxNodes ≤ (3#8 : Byte).toNat := by decide
theorem witness_SecondStatusReadsZero : (2#8 : Byte).toNat < fresh.cfg.maxNodes := by decide

end Sys2Proof.Tests
end

section
/-! SUPPORT. What `exec` can change, path by path (spec 10_state.md R45), said once for every command. -/

namespace Sys2Proof.Machine

/-- `t` is `s` after writes that the transmit path may make: to the transmit group and the fault mark, and at the end of the
transport output and the events. -/
def TransmitWrites (s t : State) : Prop :=
  ∃ active brk crc run seq out events mark,
    t =
      { s with
        txActive := active, needBreak := brk, txCrc := crc, escRun := run, txSeq := seq
        txOut := s.txOut ++ out, evOut := s.evOut ++ events, fault := mark }

/-- `t` is `s` after writes that the receive path may make: to the receive group and the fault mark, and at the end of the events
and the responses. -/
def ReceiveWrites (s t : State) : Prop :=
  ∃ busy delim node crc len buf ovf last good lost events words mark,
    t =
      { s with
        rxBusy := busy, delim := delim, rxNode := node, rxCrc := crc, rxLen := len, rxBuf := buf, rxOvf := ovf
        lastSeq := last, good := good, lost := lost
        evOut := s.evOut ++ events, respOut := s.respOut ++ words, fault := mark }

theorem transmitWrites_raise (r : Fault) (s : State) : TransmitWrites s (raise r s) :=
  ⟨_, _, _, _, _, [], [], _, by simp only [List.append_nil]; rfl⟩

theorem receiveWrites_raise (r : Fault) (s : State) : ReceiveWrites s (raise r s) :=
  ⟨_, _, _, _, _, _, _, _, _, _, [], [], _, by simp only [List.append_nil]; rfl⟩

theorem transmitWrites_txBegin (node hdr : Byte) (s : State) :
    TransmitWrites s (escPutAll [markerOf node, tableGet s.txSeq node, hdr] (openFrame node s)) := by
  obtain ⟨crc, run, out, e⟩ := escPutAll_frame [markerOf node, tableGet s.txSeq node, hdr] (openFrame node s)
  rw [e, openFrame_eq]
  exact ⟨_, _, _, _, _, _, [], _, by simp only [List.append_assoc, List.append_nil]; rfl⟩

theorem transmitWrites_escPutAll (data : List Byte) (s : State) : TransmitWrites s (escPutAll data s) := by
  obtain ⟨crc, run, out, e⟩ := escPutAll_frame data s
  rw [e]
  exact ⟨_, _, _, _, _, _, [], _, by rw [List.append_nil s.evOut]⟩

theorem transmitWrites_closeFrame (s : State) : TransmitWrites s (closeFrame s) := by
  obtain ⟨crc, run, out, e⟩ := closeFrame_frame s
  rw [e]
  exact ⟨_, _, _, _, _, _, [], _, by rw [List.append_nil s.evOut]⟩

/-- A transmit command answers a next state and makes transmit writes only. -/
theorem exec_transmitWrites {i : Instr} (hi : isTransmit i = true) (s : State) :
    ∃ t, exec i s = .next t ∧ TransmitWrites s t := by
  cases i with
  | txBegin node hdr =>
    rcases Nat.lt_or_ge node.toNat s.cfg.maxNodes with hn | hn
    · exact ⟨_, exec_txBegin_valid hdr hn, transmitWrites_txBegin node hdr s⟩
    · exact ⟨_, exec_txBegin_bad hdr hn, transmitWrites_raise _ s⟩
  | txWrite data =>
    cases ha : s.txActive with
    | false => exact ⟨_, exec_txWrite_inactive data ha, transmitWrites_raise _ s⟩
    | true =>
      rcases Nat.lt_or_ge s.cfg.maxTransmit data.length with hl | hl
      · exact ⟨_, exec_txWrite_oversized ha hl, _, _, _, _, _, [], _, _, by rw [List.append_nil]; rfl⟩
      · exact ⟨_, exec_txWrite_sends ha hl, transmitWrites_escPutAll data s⟩
  | txEnd =>
    cases ha : s.txActive with
    | false => exact ⟨_, exec_txEnd_inactive ha, transmitWrites_raise _ s⟩
    | true => exact ⟨_, exec_txEnd_active ha, transmitWrites_closeFrame s⟩
  | txResync => exact ⟨_, rfl, _, true, _, _, _, [], [], _, by simp only [List.append_nil]; rfl⟩
  | rxFeed c => cases hi
  | rxStatus node => cases hi

/-- A receive command answers a next state and makes receive writes only. -/
theorem exec_receiveWrites {i : Instr} (hi : isTransmit i = false) (s : State) :
    ∃ t, exec i s = .next t ∧ ReceiveWrites s t := by
  cases i with
  | rxFeed c =>
    obtain ⟨_, _, _, _, _, _, _, _, _, _, events, _, e⟩ := execRxFeed_frame c s
    exact ⟨_, e, _, _, _, _, _, _, _, _, _, _, events, [], _, by rw [List.append_nil]⟩
  | rxStatus node =>
    rcases Nat.lt_or_ge node.toNat s.cfg.maxNodes with hn | hn
    · exact ⟨_, exec_rxStatus_valid hn, _, _, _, _, _, _, _, _, _, _, [], _, _, by rw [List.append_nil]; rfl⟩
    · exact ⟨_, exec_rxStatus_bad hn, receiveWrites_raise _ s⟩
  | txBegin node hdr => cases hi
  | txWrite data => cases hi
  | txEnd => cases hi
  | txResync => cases hi

/-- Settles O16: a command of either path answers a next state, and neither path's writes reach the configuration or the inputs. -/
theorem commandsRunAndKeepConfiguration : Obligations.CommandsRunAndKeepConfiguration := by
  intro i s
  cases hi : isTransmit i with
  | true =>
    obtain ⟨_, e, _, _, _, _, _, _, _, _, rfl⟩ := exec_transmitWrites hi s
    exact ⟨_, e, rfl, rfl⟩
  | false =>
    obtain ⟨_, e, _, _, _, _, _, _, _, _, _, _, _, _, _, rfl⟩ := exec_receiveWrites hi s
    exact ⟨_, e, rfl, rfl⟩

end Sys2Proof.Machine
end

section
/-! SUPPORT. `State.Inv` in three parts, the configuration and one part per path, so that a command of one path leaves the other
path's part alone; and what each operation does to its own part (spec 10_state.md R43). -/

namespace Sys2Proof.Machine

/-- The part of `State.Inv` about the transmit path: the escape run (R43) and the sequence table. -/
structure State.TransmitSound (s : State) : Prop where
  run_le : s.escRun.toNat ≤ 254
  run_closed : s.txActive = false → s.escRun = 0
  seq_length : s.txSeq.length = s.cfg.maxNodes

/-- The part of `State.Inv` about the receive path: the decoder (R43), the assembly buffer and the receive tables. -/
structure State.ReceiveSound (s : State) : Prop where
  busy_delim : s.rxBusy = true → s.delim ≠ 2
  len_le : s.rxLen ≤ s.cfg.rxCapacity
  ovf_full : s.rxOvf = true → s.rxLen = s.cfg.rxCapacity
  outside_empty : s.rxBusy = false → s.rxLen = 0 ∧ s.rxOvf = false
  node_valid : s.rxBusy = true → s.rxNode.toNat < s.cfg.maxNodes
  last_length : s.lastSeq.length = s.cfg.maxNodes
  good_length : s.good.length = s.cfg.maxNodes
  lost_length : s.lost.length = s.cfg.maxNodes
  buf_wf : Memory.wf s.rxBuf = true
  buf_within : Memory.within s.cfg.rxCapacity s.rxBuf = true

theorem State.inv_iff {s : State} : s.Inv ↔ s.cfg.Legal ∧ s.TransmitSound ∧ s.ReceiveSound := by
  constructor
  · rintro ⟨hcfg, ⟨hrun, hclosed, hdelim, hlen, hovf, hempty, hnode⟩, hseq, hlast, hgood, hlost, hwf, hwithin⟩
    exact ⟨hcfg, ⟨hrun, hclosed, hseq⟩, ⟨hdelim, hlen, hovf, hempty, hnode, hlast, hgood, hlost, hwf, hwithin⟩⟩
  · rintro ⟨hcfg, ht, hr⟩
    exact ⟨hcfg,
      ⟨ht.run_le, ht.run_closed, hr.busy_delim, hr.len_le, hr.ovf_full, hr.outside_empty, hr.node_valid⟩,
      ht.seq_length, hr.last_length, hr.good_length, hr.lost_length, hr.buf_wf, hr.buf_within⟩

/-- Reset leaves a sound state (70_reset_and_hazards.md R250). -/
theorem State.resetWith_inv {c : Config} (hc : c.Legal) : (State.resetWith c).Inv := by
  refine State.inv_iff.2 ⟨hc, ?_, ?_⟩ <;> constructor <;> simp [State.resetWith, Memory.wf, Memory.within]

/-! ### The transmit path -/

@[simp] theorem escFlush_escRun (s : State) : (escFlush s).escRun = 0 := by
  unfold escFlush
  split
  · assumption
  · rfl

/-- The escaper sends a full chunk before the run can reach 255 (R121). -/
theorem escPutAll_escRun_le (frame : List Byte) {s : State} (h : s.escRun.toNat ≤ 254) :
    (escPutAll frame s).escRun.toNat ≤ 254 := by
  obtain ⟨sent, -, e⟩ := escPutAll_eq frame h
  rw [e, BitVec.toNat_ofNat]
  omega

theorem State.TransmitSound.escPutAll {s : State} (h : s.TransmitSound) (ha : s.txActive = true) (frame : List Byte) :
    (escPutAll frame s).TransmitSound := by
  have hrun := escPutAll_escRun_le frame h.run_le
  obtain ⟨crc, run, out, e⟩ := escPutAll_frame frame s
  rw [e] at hrun ⊢
  exact { h with run_le := hrun, run_closed := fun hc => absurd (ha.symm.trans hc) (by decide) }

theorem openFrame_txActive (node : Byte) (s : State) : (openFrame node s).txActive = true := by rw [openFrame_eq]

theorem State.TransmitSound.openFrame {s : State} (h : s.TransmitSound) (node : Byte) :
    (openFrame node s).TransmitSound := by
  rw [openFrame_eq]
  exact ⟨Nat.zero_le _, fun _ => rfl, (tableSet_length ..).trans h.seq_length⟩

/-- TX_END sends the pending run before the closing break (R145). -/
theorem closeFrame_escRun (s : State) : (closeFrame s).escRun = 0 := by
  simp [closeFrame, emitBreak, emitPair]

theorem State.TransmitSound.closeFrame {s : State} (h : s.TransmitSound) : (closeFrame s).TransmitSound := by
  have hrun := closeFrame_escRun s
  obtain ⟨crc, run, out, e⟩ := closeFrame_frame s
  rw [e] at hrun ⊢
  exact { h with run_le := hrun ▸ Nat.zero_le _, run_closed := fun _ => hrun }

theorem exec_keeps_transmitSound {i : Instr} (hi : isTransmit i = true) {s t : State} (h : s.TransmitSound)
    (e : exec i s = .next t) : t.TransmitSound := by
  cases i with
  | txBegin node hdr =>
    rcases Nat.lt_or_ge node.toNat s.cfg.maxNodes with hn | hn
    · cases (exec_txBegin_valid hdr hn).symm.trans e
      exact (h.openFrame node).escPutAll (openFrame_txActive node s) _
    · cases (exec_txBegin_bad hdr hn).symm.trans e
      exact { h with }
  | txWrite data =>
    cases ha : s.txActive with
    | false =>
      cases (exec_txWrite_inactive data ha).symm.trans e
      exact { h with }
    | true =>
      rcases Nat.lt_or_ge s.cfg.maxTransmit data.length with hl | hl
      · cases (exec_txWrite_oversized ha hl).symm.trans e
        exact { h with }
      · cases (exec_txWrite_sends ha hl).symm.trans e
        exact h.escPutAll ha data
  | txEnd =>
    cases ha : s.txActive with
    | false =>
      cases (exec_txEnd_inactive ha).symm.trans e
      exact { h with }
    | true =>
      cases (exec_txEnd_active ha).symm.trans e
      exact h.closeFrame
  | txResync =>
    cases e
    exact { h with }
  | rxFeed c => cases hi
  | rxStatus node => cases hi

/-! ### The receive path -/

theorem State.ReceiveSound.withDelim {s : State} (h : s.ReceiveSound) {d : Fin 3} (hd : s.rxBusy = true → d ≠ 2) :
    State.ReceiveSound { s with delim := d } :=
  { h with busy_delim := hd }

/-- A completion empties the assembly state whatever its outcome (R178). -/
theorem State.ReceiveSound.complete {s : State} (h : s.ReceiveSound) :
    State.ReceiveSound { rxComplete { s with delim := 2 } with rxBusy := false } := by
  obtain ⟨hgood, hlost, hlast⟩ := rxOutcome_lengths { s with delim := 2 }
  rw [rxComplete_eq]
  exact
    { h with
      busy_delim := nofun
      len_le := Nat.zero_le _
      ovf_full := nofun
      outside_empty := fun _ => ⟨rfl, rfl⟩
      node_valid := nofun
      last_length := hlast.trans h.last_length
      good_length := hgood.trans h.good_length
      lost_length := hlost.trans h.lost_length }

theorem State.ReceiveSound.marker {s : State} (h : s.ReceiveSound) (c : Byte) :
    State.ReceiveSound { rxMarker c s with delim := 0 } := by
  unfold rxMarker
  split
  next hvalid =>
    exact
      { h with
        busy_delim := fun _ => show (0 : Fin 3) ≠ 2 by decide
        len_le := Nat.zero_le _
        ovf_full := nofun
        outside_empty := fun _ => ⟨rfl, rfl⟩
        node_valid := fun _ => of_decide_eq_true hvalid }
  next => exact State.ReceiveSound.withDelim (s := report .addr (infoOfByte c) s) { h with } fun _ => by decide

/-- Appended bytes stay within the capacity, and the overflow flag is set only with the buffer full (R171). -/
theorem State.ReceiveSound.append {s : State} (h : s.ReceiveSound) (hb : s.rxBusy = true) (bytes : List Byte) :
    (rxAppendAll bytes s).ReceiveSound := by
  obtain ⟨buf, e, hwf, hwithin, -⟩ := rxAppendAll_eq bytes h.len_le h.buf_wf
  rw [e]
  have hfull : (s.rxOvf || decide (s.cfg.rxCapacity < s.rxLen + bytes.length)) = true →
      min s.cfg.rxCapacity (s.rxLen + bytes.length) = s.cfg.rxCapacity := by
    rw [Bool.or_eq_true, decide_eq_true_eq]
    rintro (ho | hlt)
    · have := h.ovf_full ho
      omega
    · omega
  exact
    { h with
      len_le := Nat.min_le_left _ _
      ovf_full := hfull
      outside_empty := fun hc => absurd (hb.symm.trans hc) (by decide)
      buf_wf := hwf
      buf_within := hwithin h.buf_within }

/-- RX_FEED, along the decoder's branches (R160). -/
theorem execRxFeed_keeps_receiveSound {s t : State} (h : s.ReceiveSound) {c : Byte} (e : execRxFeed c s = .next t) :
    t.ReceiveSound := by
  by_cases hc : c = 0x00
  · subst hc
    cases hb : s.rxBusy with
    | false =>
      cases (execRxFeed_delimiter_outside hb).symm.trans e
      exact h.withDelim fun hbusy => absurd (hb.symm.trans hbusy) (by decide)
    | true =>
      by_cases hd : s.delim = 0
      · cases (execRxFeed_delimiter_first hb hd).symm.trans e
        exact h.withDelim fun _ => by decide
      · cases (execRxFeed_delimiter_completes hb hd).symm.trans e
        exact h.complete
  · cases hb : s.rxBusy with
    | false =>
      by_cases hd : s.delim = 2
      · cases (execRxFeed_marker hc hb hd).symm.trans e
        exact h.marker c
      · cases (execRxFeed_idle hc hb hd).symm.trans e
        exact h.withDelim fun _ => by decide
    | true =>
      by_cases hd : s.delim = 1
      · cases (execRxFeed_chunk hc hb hd).symm.trans e
        exact (h.append hb _).withDelim fun _ => by decide
      · cases (execRxFeed_literal hc hb hd).symm.trans e
        exact (h.append hb _).withDelim fun _ => by decide

theorem exec_keeps_receiveSound {i : Instr} (hi : isTransmit i = false) {s t : State} (h : s.ReceiveSound)
    (e : exec i s = .next t) : t.ReceiveSound := by
  cases i with
  | rxFeed c => exact execRxFeed_keeps_receiveSound h e
  | rxStatus node =>
    rcases Nat.lt_or_ge node.toNat s.cfg.maxNodes with hn | hn
    · cases (exec_rxStatus_valid hn).symm.trans e
      exact
        { h with
          good_length := (tableSet_length ..).trans h.good_length
          lost_length := (tableSet_length ..).trans h.lost_length }
    · cases (exec_rxStatus_bad hn).symm.trans e
      exact { h with }
  | txBegin node hdr => cases hi
  | txWrite data => cases hi
  | txEnd => cases hi
  | txResync => cases hi

end Sys2Proof.Machine
end

section
/-! SUPPORT. The obligations about the step (spec 00_scope.md, 10_state.md R43): soundness is kept, the block waits, an illegal
reset is refused. -/

namespace Sys2Proof.Machine

/-- Every command keeps soundness: its own path's part by that path's lemma, the other part because the frame leaves it alone. -/
theorem exec_keeps_inv {i : Instr} {s t : State} (h : s.Inv) (e : exec i s = .next t) : t.Inv := by
  obtain ⟨hcfg, htx, hrx⟩ := State.inv_iff.1 h
  cases hi : isTransmit i with
  | true =>
    have htx' := exec_keeps_transmitSound hi htx e
    obtain ⟨_, e', _, _, _, _, _, _, _, _, rfl⟩ := exec_transmitWrites hi s
    cases e'.symm.trans e
    exact State.inv_iff.2 ⟨hcfg, htx', { hrx with }⟩
  | false =>
    have hrx' := exec_keeps_receiveSound hi hrx e
    obtain ⟨_, e', _, _, _, _, _, _, _, _, _, _, _, _, _, rfl⟩ := exec_receiveWrites hi s
    cases e'.symm.trans e
    exact State.inv_iff.2 ⟨hcfg, { htx with }, hrx'⟩

/-- Settles O14, along what a step can do: a reset, a command, an illegal command, or waiting. -/
theorem stepKeepsSoundState : Obligations.StepKeepsSoundState := by
  intro s t h hstep
  obtain ⟨c, rest, -, hc, rfl⟩ | ⟨w, data, rest, i, -, -, -, e⟩ | ⟨w, data, rest, err, -, -, -, rfl⟩ | ⟨-, -, rfl⟩ :=
    step_cases hstep
  · exact (State.resetWith_inv hc).of_inputs rest none
  · exact exec_keeps_inv (h.of_inputs rest s.fault) e
  · exact h.of_inputs rest (some .illegalCommand)
  · exact h

theorem step_reset {s : State} {c : Config} {rest : List HostInput} (hp : s.pending = .reset c :: rest) :
    step s = applyReset c rest := by
  simp only [step, hp]

/-- Settles O9: with no input and no mark the step takes its waiting branch. -/
theorem blockWaitsForInput : Obligations.BlockWaitsForInput := by
  intro s hf hp
  simp only [step, hp, hf]

/-- Settles O12: the step is that reset, and a reset refuses a configuration outside R7 (R254). -/
theorem resetNeedsLegalConfiguration : Obligations.ResetNeedsLegalConfiguration := by
  intro s c rest hc hp
  rw [step_reset hp, applyReset, if_neg hc]

end Sys2Proof.Machine
end

section
/-! SUPPORT. The obligations about single fields of the state (spec 10_state.md R27, R38 to R40, R43): the traces grow, the sequence
counters advance, reset is sound. -/

namespace Sys2Proof.Machine

/-- Settles O20: neither path's writes touch a trace but at its end. -/
theorem tracesOnlyGrow : Obligations.TracesOnlyGrow := by
  intro i s t e
  cases hi : isTransmit i with
  | true =>
    obtain ⟨_, e', _, _, _, _, _, out, events, _, rfl⟩ := exec_transmitWrites hi s
    cases e'.symm.trans e
    exact ⟨⟨out, rfl⟩, ⟨events, rfl⟩, ⟨[], List.append_nil _⟩⟩
  | false =>
    obtain ⟨_, e', _, _, _, _, _, _, _, _, _, _, events, words, _, rfl⟩ := exec_receiveWrites hi s
    cases e'.symm.trans e
    exact ⟨⟨[], List.append_nil _⟩, ⟨events, rfl⟩, ⟨words, rfl⟩⟩

/-! ### The sequence counters (R27) -/

theorem escPutAll_txSeq (frame : List Byte) (s : State) : (escPutAll frame s).txSeq = s.txSeq := by
  obtain ⟨_, _, _, e⟩ := escPutAll_frame frame s
  rw [e]

theorem closeFrame_txSeq (s : State) : (closeFrame s).txSeq = s.txSeq := by
  obtain ⟨_, _, _, e⟩ := closeFrame_frame s
  rw [e]

/-- TX_BEGIN to a valid node writes that node's entry, before its frame bytes, which leave the table alone. -/
theorem exec_txBegin_txSeq {s t : State} {node hdr : Byte} (hn : node.toNat < s.cfg.maxNodes)
    (e : exec (.txBegin node hdr) s = .next t) : t.txSeq = tableSet s.txSeq node (tableGet s.txSeq node + 1) := by
  cases (exec_txBegin_valid hdr hn).symm.trans e
  rw [escPutAll_txSeq, openFrame_eq]

theorem exec_txWrite_txSeq {s t : State} {data : List Byte} (e : exec (.txWrite data) s = .next t) : t.txSeq = s.txSeq := by
  cases ha : s.txActive with
  | false => cases (exec_txWrite_inactive data ha).symm.trans e; rfl
  | true =>
    rcases Nat.lt_or_ge s.cfg.maxTransmit data.length with hl | hl
    · cases (exec_txWrite_oversized ha hl).symm.trans e; rfl
    · cases (exec_txWrite_sends ha hl).symm.trans e; exact escPutAll_txSeq data s

theorem exec_txEnd_txSeq {s t : State} (e : exec .txEnd s = .next t) : t.txSeq = s.txSeq := by
  cases ha : s.txActive with
  | false => cases (exec_txEnd_inactive ha).symm.trans e; rfl
  | true => cases (exec_txEnd_active ha).symm.trans e; exact closeFrame_txSeq s

theorem exec_receive_txSeq {i : Instr} (hi : isTransmit i = false) {s t : State} (e : exec i s = .next t) :
    t.txSeq = s.txSeq := by
  obtain ⟨_, e', _, _, _, _, _, _, _, _, _, _, _, _, _, rfl⟩ := exec_receiveWrites hi s
  cases e'.symm.trans e
  rfl

/-- Settles O24: TX_BEGIN writes one entry of the table, which in a sound state has one for every valid node; the other commands,
one by one, leave the table alone. -/
theorem sequenceCountersAdvance : Obligations.SequenceCountersAdvance := by
  refine ⟨fun s t node hdr hs hn e => ?_, fun i s t hi e => ?_⟩
  · obtain ⟨-, htx, -⟩ := State.inv_iff.1 hs
    rw [exec_txBegin_txSeq hn e]
    refine ⟨?_, fun other ho => tableGet_tableSet_ne _ _ ho⟩
    rw [tableGet_tableSet_same _ (htx.seq_length ▸ hn), BitVec.toNat_add]
    rfl
  · cases i with
    | txBegin node hdr => exact absurd rfl (hi node hdr)
    | txWrite data => exact exec_txWrite_txSeq e
    | txEnd => exact exec_txEnd_txSeq e
    | txResync => cases e; rfl
    | rxFeed c => exact exec_receive_txSeq rfl e
    | rxStatus node => exact exec_receive_txSeq rfl e

/-- Settles O13: reset is sound under every legal configuration, the reference one among them; of the receive accumulator nothing is
asked, since the decoder is not Receiving. -/
theorem resetStateIsSound : Obligations.ResetStateIsSound :=
  ⟨fun _ hc => ⟨State.resetWith_inv hc, nofun⟩, State.resetWith_inv (by decide)⟩

end Sys2Proof.Machine
end

section
/-! SUPPORT. What each path reads (spec 10_state.md R45). A command of a path runs from any state that agrees with `s` on that
path's part as it runs from `s`, whatever the rest of the state is: its meaning commutes with laying the path's part of `s` over
another state `r`. -/

namespace Sys2Proof.Machine

/-! ### The transmit path -/

/-- `r` with the transmit path's part and the fault mark of `s`. -/
def State.transmitOnto (s r : State) : State :=
  { r with
    cfg := s.cfg, txActive := s.txActive, needBreak := s.needBreak, txCrc := s.txCrc, escRun := s.escRun
    txSeq := s.txSeq, txOut := s.txOut, fault := s.fault }

/-- `r` after `events` are appended to its event trace. -/
def State.withEvents (r : State) (events : List Event) : State := { r with evOut := r.evOut ++ events }

@[simp] theorem State.withEvents_nil (r : State) : r.withEvents [] = r := by simp [State.withEvents]

theorem State.eq_transmitOnto {s r : State} (hp : s.transmitPart = r.transmitPart) (hf : s.fault = r.fault) :
    r = s.transmitOnto r := by
  simp only [State.transmitPart, Prod.mk.injEq] at hp
  simp only [State.transmitOnto, hp, hf]

theorem escFlush_transmitOnto (s r : State) : escFlush (s.transmitOnto r) = (escFlush s).transmitOnto r := by
  by_cases h : s.escRun = 0
  · rw [escFlush, escFlush, if_pos h, if_pos (by exact h)]
  · rw [escFlush, escFlush, if_neg h, if_neg (by exact h)]
    rfl

theorem escDelimiter_transmitOnto (s r : State) : escDelimiter (s.transmitOnto r) = (escDelimiter s).transmitOnto r := by
  by_cases h : s.escRun + 1 = 255
  · rw [escDelimiter, escDelimiter, if_pos h, if_pos (by exact h)]
    rfl
  · rw [escDelimiter, escDelimiter, if_neg h, if_neg (by exact h)]
    rfl

theorem escPut_transmitOnto (b : Byte) (s r : State) : escPut b (s.transmitOnto r) = (escPut b s).transmitOnto r := by
  by_cases hb : b = 0x00
  · rw [escPut, escPut, if_pos hb, if_pos hb]
    exact escDelimiter_transmitOnto { s with txCrc := crcStep s.cfg s.txCrc b } r
  · rw [escPut, escPut, if_neg hb, if_neg hb]
    exact congrArg (emit (.byte b)) (escFlush_transmitOnto { s with txCrc := crcStep s.cfg s.txCrc b } r)

theorem escPutAll_transmitOnto (frame : List Byte) (s r : State) :
    escPutAll frame (s.transmitOnto r) = (escPutAll frame s).transmitOnto r := by
  induction frame generalizing s with
  | nil => rfl
  | cons b rest ih => rw [escPutAll, escPutAll, escPut_transmitOnto, ih]

theorem openFrame_transmitOnto (node : Byte) (s r : State) :
    openFrame node (s.transmitOnto r) = (openFrame node s).transmitOnto r := by
  rw [openFrame_eq, openFrame_eq]
  rfl

theorem closeFrame_transmitOnto (s r : State) : closeFrame (s.transmitOnto r) = (closeFrame s).transmitOnto r := by
  have hsent := escPutAll_transmitOnto [lowByte s.txCrc, highByte s.txCrc] s r
  have hflush := escFlush_transmitOnto (escPutAll [lowByte s.txCrc, highByte s.txCrc] s) r
  rw [closeFrame, show (s.transmitOnto r).txCrc = s.txCrc from rfl, hsent, hflush]
  rfl

theorem escPutAll_evOut (frame : List Byte) (s : State) : (escPutAll frame s).evOut = s.evOut := by
  obtain ⟨_, _, _, e⟩ := escPutAll_frame frame s
  rw [e]

theorem closeFrame_evOut (s : State) : (closeFrame s).evOut = s.evOut := by
  obtain ⟨_, _, _, e⟩ := closeFrame_frame s
  rw [e]

/-- `i` leads from `s` to `t`, and likewise from every state with the same transmit part and fault mark, with the same events. -/
def TransmitDetermines (i : Instr) (s t : State) : Prop :=
  ∃ events, t.evOut = s.evOut ++ events ∧ ∀ r, exec i (s.transmitOnto r) = .next (t.transmitOnto (r.withEvents events))

theorem TransmitDetermines.of_no_events {i : Instr} {s t : State} (hev : t.evOut = s.evOut)
    (h : ∀ r, exec i (s.transmitOnto r) = .next (t.transmitOnto r)) : TransmitDetermines i s t :=
  ⟨[], by rw [hev, List.append_nil], fun r => by rw [State.withEvents_nil, h]⟩

/-- R45: what a transmit command does is fixed by the transmit path's part of the state and by the fault mark. -/
theorem exec_transmitDetermines {i : Instr} (hi : isTransmit i = true) {s t : State} (e : exec i s = .next t) :
    TransmitDetermines i s t := by
  cases i with
  | txBegin node hdr =>
    rcases Nat.lt_or_ge node.toNat s.cfg.maxNodes with hn | hn
    · cases (exec_txBegin_valid hdr hn).symm.trans e
      refine .of_no_events (by rw [escPutAll_evOut, openFrame_eq]) fun r => ?_
      rw [exec_txBegin_valid hdr (by exact hn), openFrame_transmitOnto, escPutAll_transmitOnto]
      rfl
    · cases (exec_txBegin_bad hdr hn).symm.trans e
      exact .of_no_events rfl fun r => exec_txBegin_bad (s := s.transmitOnto r) hdr hn
  | txWrite data =>
    cases ha : s.txActive with
    | false =>
      cases (exec_txWrite_inactive data ha).symm.trans e
      exact .of_no_events rfl fun r => exec_txWrite_inactive (s := s.transmitOnto r) data ha
    | true =>
      rcases Nat.lt_or_ge s.cfg.maxTransmit data.length with hl | hl
      · cases (exec_txWrite_oversized ha hl).symm.trans e
        exact ⟨_, rfl, fun r => exec_txWrite_oversized (s := s.transmitOnto r) ha hl⟩
      · cases (exec_txWrite_sends ha hl).symm.trans e
        refine .of_no_events (escPutAll_evOut data s) fun r => ?_
        rw [exec_txWrite_sends (by exact ha) (by exact hl), escPutAll_transmitOnto]
  | txEnd =>
    cases ha : s.txActive with
    | false =>
      cases (exec_txEnd_inactive ha).symm.trans e
      exact .of_no_events rfl fun r => exec_txEnd_inactive (s := s.transmitOnto r) ha
    | true =>
      cases (exec_txEnd_active ha).symm.trans e
      refine .of_no_events (closeFrame_evOut s) fun r => ?_
      rw [exec_txEnd_active (by exact ha), closeFrame_transmitOnto]
  | txResync =>
    cases e
    exact .of_no_events rfl fun r => rfl
  | rxFeed c => cases hi
  | rxStatus node => cases hi

/-! ### The outcome of a completion, branch by branch (60_exceptions.md R235) -/

theorem rxOutcome_overflow {s : State} (ho : s.rxOvf = true) :
    rxOutcome s = report .overflow (infoOfCount s.rxLen) s := by
  rw [rxOutcome, if_pos ho]

theorem rxOutcome_short {s : State} (ho : s.rxOvf = false) (hl : s.rxLen < 3) : rxOutcome s = s := by
  rw [rxOutcome, if_neg (by simp [ho]), if_pos hl]

theorem rxOutcome_mismatch {s : State} (ho : s.rxOvf = false) (hl : 3 ≤ s.rxLen) (hc : receivedCrc s ≠ s.rxCrc) :
    rxOutcome s = report .crc (receivedCrc s) s := by
  rw [rxOutcome, if_neg (by simp [ho]), if_neg (by omega), if_pos hc]

theorem rxOutcome_accepted {s : State} (ho : s.rxOvf = false) (hl : 3 ≤ s.rxLen) (hc : receivedCrc s = s.rxCrc) :
    rxOutcome s = rxAccept s := by
  rw [rxOutcome, if_neg (by simp [ho]), if_neg (by omega), if_neg (by simp [hc])]

/-! ### The receive path -/

theorem exec_rxFeed (c : Byte) (s : State) : exec (.rxFeed c) s = execRxFeed c s := rfl

theorem rxAppendAll_evOut (bytes : List Byte) (s : State) : (rxAppendAll bytes s).evOut = s.evOut := by
  obtain ⟨_, _, _, _, e⟩ := rxAppendAll_frame bytes s
  rw [e]

/-- `r` with the receive path's part and the fault mark of `s`, but for the assembly buffer, which is `buf`. -/
def State.receiveOnto (s r : State) (buf : Memory) : State :=
  { r with
    cfg := s.cfg, rxBusy := s.rxBusy, delim := s.delim, rxNode := s.rxNode, rxCrc := s.rxCrc, rxLen := s.rxLen
    rxBuf := buf, rxOvf := s.rxOvf, lastSeq := s.lastSeq, good := s.good, lost := s.lost, respOut := s.respOut
    fault := s.fault }

theorem State.eq_receiveOnto {s r : State} (hp : s.receivePart = r.receivePart) (hf : s.fault = r.fault) :
    r = s.receiveOnto r r.rxBuf := by
  simp only [State.receivePart, Prod.mk.injEq] at hp
  simp only [State.receiveOnto, hp, hf]

/-- `R n` relates assembly buffers that the receive path cannot tell apart while `n` bytes are filled: reads below the fill length
agree, appending the same byte keeps them related, and so does emptying them. -/
structure FillRelation (R : Nat → Memory → Memory → Prop) : Prop where
  read : ∀ {n m m' k}, R n m m' → k < n → Memory.read m k = Memory.read m' k
  append : ∀ {n m m'} (b : Byte), R n m m' → R (n + 1) (Memory.write m n b) (Memory.write m' n b)
  empty : ∀ {n m m'}, R n m m' → R 0 m m'

section
variable {R : Nat → Memory → Memory → Prop} (hR : FillRelation R)
include hR

theorem FillRelation.bytes {n start count : Nat} {m m' : Memory} (h : R n m m') (hle : start + count ≤ n) :
    Memory.bytes m start count = Memory.bytes m' start count :=
  Memory.bytes_congr fun _ _ hk => hR.read h (by omega)

theorem rxAppend_receiveOnto (b : Byte) {s : State} (r : State) {buf : Memory} (h : R s.rxLen s.rxBuf buf) :
    ∃ buf', rxAppend b (s.receiveOnto r buf) = (rxAppend b s).receiveOnto r buf' ∧
      R (rxAppend b s).rxLen (rxAppend b s).rxBuf buf' := by
  by_cases hroom : s.rxLen < s.cfg.rxCapacity
  · have hread := hR.read (hR.append b h) (k := s.rxLen - 2) (by omega)
    refine ⟨Memory.write buf s.rxLen b, ?_, ?_⟩
    · rw [rxAppend, rxAppend, if_pos hroom, if_pos (by exact hroom)]
      simp only [State.receiveOnto, hread]
      rfl
    · rw [rxAppend, if_pos hroom]
      exact hR.append b h
  · rw [rxAppend, rxAppend, if_neg hroom, if_neg (by exact hroom)]
    exact ⟨buf, rfl, h⟩

theorem rxAppendAll_receiveOnto (bytes : List Byte) {s : State} (r : State) {buf : Memory} (h : R s.rxLen s.rxBuf buf) :
    ∃ buf', rxAppendAll bytes (s.receiveOnto r buf) = (rxAppendAll bytes s).receiveOnto r buf' ∧
      R (rxAppendAll bytes s).rxLen (rxAppendAll bytes s).rxBuf buf' := by
  induction bytes generalizing s buf with
  | nil => exact ⟨buf, rfl, h⟩
  | cons b rest ih =>
    obtain ⟨buf₁, e₁, h₁⟩ := rxAppend_receiveOnto hR b r h
    rw [rxAppendAll, rxAppendAll, e₁]
    exact ih h₁

/-- A completion reads the buffer below the fill length only (R172). -/
theorem rxOutcome_receiveOnto (s : State) :
    ∃ events, (rxOutcome s).evOut = s.evOut ++ events ∧ ∀ r buf, R s.rxLen s.rxBuf buf →
      rxOutcome (s.receiveOnto r buf) = (rxOutcome s).receiveOnto (r.withEvents events) buf := by
  cases ho : s.rxOvf with
  | true =>
    rw [rxOutcome_overflow ho]
    exact ⟨_, rfl, fun r buf _ => rxOutcome_overflow (s := s.receiveOnto r buf) ho⟩
  | false =>
    rcases Nat.lt_or_ge s.rxLen 3 with hl | hl
    · rw [rxOutcome_short ho hl]
      exact ⟨[], (List.append_nil _).symm, fun r buf _ => by
        rw [State.withEvents_nil, rxOutcome_short (by exact ho) (by exact hl)]⟩
    · have hcrc : ∀ r buf, R s.rxLen s.rxBuf buf → receivedCrc (s.receiveOnto r buf) = receivedCrc s := fun r buf h => by
        rw [receivedCrc, receivedCrc, hR.read h (k := s.rxLen - 2) (by omega), hR.read h (k := s.rxLen - 1) (by omega)]
        rfl
      by_cases hc : receivedCrc s = s.rxCrc
      · rw [rxOutcome_accepted ho hl hc]
        refine ⟨_, rfl, fun r buf h => ?_⟩
        rw [rxOutcome_accepted (by exact ho) (by exact hl) ((hcrc r buf h).trans hc), rxAccept, rxAccept,
          hR.read h (k := 0) (by omega), hR.bytes h (start := 1) (count := s.rxLen - 3) (by omega)]
        rfl
      · rw [rxOutcome_mismatch ho hl hc]
        refine ⟨_, rfl, fun r buf h => ?_⟩
        rw [rxOutcome_mismatch (by exact ho) (by exact hl) fun e => hc ((hcrc r buf h).symm.trans e), hcrc r buf h]
        rfl

end

/-- `i` leads from `s` to `t`, and likewise from every state with the same receive part and fault mark, with the same events; the
assembly buffer need only be related before, and is related after. -/
def ReceiveDetermines (R : Nat → Memory → Memory → Prop) (i : Instr) (s t : State) : Prop :=
  ∃ events, t.evOut = s.evOut ++ events ∧ ∀ r buf, R s.rxLen s.rxBuf buf →
    ∃ buf', exec i (s.receiveOnto r buf) = .next (t.receiveOnto (r.withEvents events) buf') ∧ R t.rxLen t.rxBuf buf'

section
variable {R : Nat → Memory → Memory → Prop}

theorem ReceiveDetermines.of_no_events {i : Instr} {s t : State} (hev : t.evOut = s.evOut)
    (h : ∀ r buf, R s.rxLen s.rxBuf buf →
      ∃ buf', exec i (s.receiveOnto r buf) = .next (t.receiveOnto r buf') ∧ R t.rxLen t.rxBuf buf') :
    ReceiveDetermines R i s t :=
  ⟨[], by rw [hev, List.append_nil], by simpa only [State.withEvents_nil] using h⟩

variable (hR : FillRelation R)
include hR

theorem completion_receiveDetermines {s : State} (hb : s.rxBusy = true) (hd : s.delim ≠ 0) :
    ReceiveDetermines R (.rxFeed 0x00) s { rxComplete { s with delim := 2 } with rxBusy := false } := by
  obtain ⟨events, hev, h⟩ := rxOutcome_receiveOnto hR { s with delim := 2 }
  refine ⟨events, hev, fun r buf hbuf => ⟨buf, ?_, ?_⟩⟩
  · have hout := h r buf hbuf
    rw [exec_rxFeed, execRxFeed_delimiter_completes (by exact hb) (by exact hd), rxComplete, rxComplete]
    change Host.Outcome.next { rxOutcome (State.receiveOnto { s with delim := 2 } r buf) with
      rxLen := 0, rxOvf := false, rxCrc := s.cfg.crcInit, rxBusy := false } = _
    rw [hout]
    rfl
  · rw [rxComplete_eq]
    exact hR.empty hbuf

theorem marker_receiveDetermines {s : State} {c : Byte} (hc : c ≠ 0x00) (hb : s.rxBusy = false) (hd : s.delim = 2) :
    ReceiveDetermines R (.rxFeed c) s { rxMarker c s with delim := 0 } := by
  have e : ∀ r buf, exec (.rxFeed c) (s.receiveOnto r buf) = .next { rxMarker c (s.receiveOnto r buf) with delim := 0 } :=
    fun r buf => execRxFeed_marker (s := s.receiveOnto r buf) hc hb hd
  by_cases hv : validNode s.cfg (nodeOf c) = true
  · simp only [rxMarker, if_pos hv]
    refine .of_no_events rfl fun r buf h => ⟨buf, ?_, hR.empty h⟩
    rw [e, rxMarker, if_pos (by exact hv)]
    rfl
  · simp only [rxMarker, if_neg hv]
    refine ⟨_, rfl, fun r buf h => ⟨buf, ?_, h⟩⟩
    rw [e, rxMarker, if_neg (by exact hv)]
    rfl

theorem appends_receiveDetermines {s : State} {c : Byte} {bytes : List Byte}
    (e : ∀ r buf, exec (.rxFeed c) (s.receiveOnto r buf) = .next { rxAppendAll bytes (s.receiveOnto r buf) with delim := 0 }) :
    ReceiveDetermines R (.rxFeed c) s { rxAppendAll bytes s with delim := 0 } := by
  refine .of_no_events (rxAppendAll_evOut bytes s) fun r buf h => ?_
  obtain ⟨buf', e', h'⟩ := rxAppendAll_receiveOnto hR bytes r h
  exact ⟨buf', by rw [e, e']; rfl, h'⟩

/-- R45: what a receive command does is fixed by the receive path's part of the state and by the fault mark; of the assembly buffer
only what is below the fill length counts (R33). -/
theorem exec_receiveDetermines {i : Instr} (hi : isTransmit i = false) {s t : State} (e : exec i s = .next t) :
    ReceiveDetermines R i s t := by
  cases i with
  | rxFeed c =>
    by_cases hc : c = 0x00
    · subst hc
      cases hb : s.rxBusy with
      | false =>
        cases (execRxFeed_delimiter_outside hb).symm.trans e
        exact .of_no_events rfl fun r buf h => ⟨buf, execRxFeed_delimiter_outside (s := s.receiveOnto r buf) hb, h⟩
      | true =>
        by_cases hd : s.delim = 0
        · cases (execRxFeed_delimiter_first hb hd).symm.trans e
          exact .of_no_events rfl fun r buf h => ⟨buf, execRxFeed_delimiter_first (s := s.receiveOnto r buf) hb hd, h⟩
        · cases (execRxFeed_delimiter_completes hb hd).symm.trans e
          exact completion_receiveDetermines hR hb hd
    · cases hb : s.rxBusy with
      | false =>
        by_cases hd : s.delim = 2
        · cases (execRxFeed_marker hc hb hd).symm.trans e
          exact marker_receiveDetermines hR hc hb hd
        · cases (execRxFeed_idle hc hb hd).symm.trans e
          exact .of_no_events rfl fun r buf h => ⟨buf, execRxFeed_idle (s := s.receiveOnto r buf) hc hb hd, h⟩
      | true =>
        by_cases hd : s.delim = 1
        · cases (execRxFeed_chunk hc hb hd).symm.trans e
          exact appends_receiveDetermines hR fun r buf => execRxFeed_chunk (s := s.receiveOnto r buf) hc hb hd
        · cases (execRxFeed_literal hc hb hd).symm.trans e
          exact appends_receiveDetermines hR fun r buf => execRxFeed_literal (s := s.receiveOnto r buf) hc hb hd
  | rxStatus node =>
    rcases Nat.lt_or_ge node.toNat s.cfg.maxNodes with hn | hn
    · cases (exec_rxStatus_valid hn).symm.trans e
      exact .of_no_events rfl fun r buf h => ⟨buf, exec_rxStatus_valid (s := s.receiveOnto r buf) hn, h⟩
    · cases (exec_rxStatus_bad hn).symm.trans e
      exact .of_no_events rfl fun r buf h => ⟨buf, exec_rxStatus_bad (s := s.receiveOnto r buf) hn, h⟩
  | txBegin node hdr => cases hi
  | txWrite data => cases hi
  | txEnd => cases hi
  | txResync => cases hi

end

end Sys2Proof.Machine
end

section
/-! SUPPORT. The obligations about what the paths read (spec 10_state.md R33, R45). -/

namespace Sys2Proof.Machine

theorem fillRelation_eq : FillRelation fun _ m m' => m = m' where
  read h _ := h ▸ rfl
  append _ h := h ▸ rfl
  empty h := h

/-- Settles O21: a path's writes stay in that path's part, and a command of the path runs from `s₂`, which is the path's part of `s₁`
over `s₂`, as it runs from `s₁`. -/
theorem pathsAreDisjoint : Obligations.PathsAreDisjoint := by
  refine ⟨fun i s t e => ⟨fun hi => ?_, fun hi => ?_⟩, fun i s₁ s₂ t₁ t₂ e₁ e₂ hf => ⟨fun hi hp => ?_, fun hi hp => ?_⟩⟩
  · obtain ⟨_, e', _, _, _, _, _, _, _, _, rfl⟩ := exec_transmitWrites hi s
    cases e'.symm.trans e
    rfl
  · obtain ⟨_, e', _, _, _, _, _, _, _, _, _, _, _, _, _, rfl⟩ := exec_receiveWrites hi s
    cases e'.symm.trans e
    rfl
  · obtain ⟨events, hev, h⟩ := exec_transmitDetermines hi e₁
    have e := h s₂
    rw [← State.eq_transmitOnto hp hf] at e
    cases e.symm.trans e₂
    exact ⟨rfl, rfl, events, hev, rfl⟩
  · obtain ⟨events, hev, h⟩ := exec_receiveDetermines fillRelation_eq hi e₁
    have hbuf : s₁.rxBuf = s₂.rxBuf := by
      simp only [State.receivePart, Prod.mk.injEq] at hp
      simp only [hp]
    obtain ⟨_, e, rfl⟩ := h s₂ s₂.rxBuf hbuf
    rw [← State.eq_receiveOnto hp hf] at e
    cases e.symm.trans e₂
    exact ⟨rfl, rfl, events, hev, rfl⟩

/-- Canonical buffers that agree below `n`. -/
def SameFilled (n : Nat) (m m' : Memory) : Prop :=
  Memory.bytes m 0 n = Memory.bytes m' 0 n ∧ Memory.wf m = true ∧ Memory.wf m' = true

theorem sameBelowFill_iff {s t : State} :
    SameBelowFill s t ↔ ∃ buf, t = { s with rxBuf := buf } ∧ SameFilled s.rxLen s.rxBuf buf := by
  constructor
  · rintro ⟨ht, hsame⟩
    exact ⟨t.rxBuf, ht, hsame⟩
  · rintro ⟨buf, rfl, hsame⟩
    exact ⟨rfl, hsame⟩

theorem fillRelation_sameFilled : FillRelation SameFilled where
  read := fun ⟨hbytes, _, _⟩ hk => Memory.read_of_bytes hbytes (Nat.zero_le _) (by omega)
  append := fun b ⟨hbytes, hm, hm'⟩ => by
    refine ⟨?_, Memory.wf_write _ _ hm, Memory.wf_write _ _ hm'⟩
    rw [Memory.bytes_snoc, Memory.bytes_snoc, Memory.bytes_write_past _ _ (by omega), Memory.bytes_write_past _ _ (by omega),
      hbytes, Nat.zero_add, Memory.read_write_same hm, Memory.read_write_same hm']
  empty := fun ⟨_, hm, hm'⟩ => ⟨rfl, hm, hm'⟩

/-- Settles O22: a transmit command reads no buffer, and a receive command only what is below the fill length; what is neither in the
path's part nor an appended event is left alone in both states. -/
theorem bufferPastFillIsUnobservable : Obligations.BufferPastFillIsUnobservable := by
  intro i s₁ s₂ t₁ t₂ hs e₁ e₂
  obtain ⟨buf, rfl, hbuf⟩ := sameBelowFill_iff.1 hs
  rw [sameBelowFill_iff]
  cases hi : isTransmit i with
  | true =>
    obtain ⟨events, hev, h⟩ := exec_transmitDetermines hi e₁
    cases (h { s₁ with rxBuf := buf }).symm.trans e₂
    obtain ⟨_, e', _, _, _, _, _, _, _, _, rfl⟩ := exec_transmitWrites hi s₁
    cases e'.symm.trans e₁
    cases List.append_cancel_left hev
    exact ⟨buf, rfl, hbuf⟩
  | false =>
    obtain ⟨events, hev, h⟩ := exec_receiveDetermines fillRelation_sameFilled hi e₁
    obtain ⟨buf', e, hbuf'⟩ := h { s₁ with rxBuf := buf } buf hbuf
    cases e.symm.trans e₂
    obtain ⟨_, e', _, _, _, _, _, _, _, _, _, _, _, _, _, rfl⟩ := exec_receiveWrites hi s₁
    cases e'.symm.trans e₁
    cases List.append_cancel_left hev
    exact ⟨buf', rfl, hbuf'⟩

end Sys2Proof.Machine
end

section
/-! SUPPORT. The obligations about a run's order: a step runs the command it takes (spec 20_memory.md R58), and a second RX_STATUS reads
what the first cleared (R59). -/

namespace Sys2Proof.Machine

/-- R58: an unmarked state with a command next runs that command, with the input taken off. -/
theorem step_command {s : State} {w : Word} {data : List Byte} {rest : List HostInput} (hf : s.fault = none)
    (hp : s.pending = .command w data :: rest) : step s = runCommand w data { s with pending := rest } := by
  simp only [step, hp, hf]

theorem runCommand_of_decode {w : Word} {data : List Byte} {i : Instr} (h : decode w data = .ok i) (s : State) :
    runCommand w data s = exec i s := by
  simp only [runCommand, h]

/-- Settles O7: the step takes its command branch, and that runs what the pair decodes to. -/
theorem stepRunsDecodedCommand : Obligations.StepRunsDecodedCommand := by
  intro s w data rest i hf hp hd
  rw [step_command hf hp, runCommand_of_decode hd]

/-- A cleared entry reads as zero, also past the table, where the write is dropped but every read is zero. -/
theorem tableGet_tableSet_zero {n : Nat} (t : List (BitVec n)) (node : Byte) : tableGet (tableSet t node 0) node = 0 := by
  rcases Nat.lt_or_ge node.toNat t.length with h | h
  · exact tableGet_tableSet_same 0 h
  · exact List.getD_eq_default _ _ ((tableSet_length t node 0).symm ▸ h)

theorem statusWord_zero : statusWord 0 0 = 0x00000000 := by decide

/-- Settles O50: the first RX_STATUS leaves the configuration, so the second is valid too, and both counters it answers are cleared. -/
theorem secondStatusReadsZero : Obligations.SecondStatusReadsZero := by
  intro s node hn
  refine ⟨_, _, exec_rxStatus_valid hn, exec_rxStatus_valid hn, ?_⟩
  simp only [respond_respOut, tableGet_tableSet_zero, statusWord_zero]

end Sys2Proof.Machine
end

section
/-! SUPPORT. A command word by its fields (spec 30_encoding.md R70): what the opcode map, the encoder and the decoder say of each. -/

namespace Sys2Proof.Machine

/-! ### A word is its five fields -/

theorem bitsAppend_inj {m n : Nat} {x x' : BitVec m} {y y' : BitVec n} : x ++ y = x' ++ y' ↔ x = x' ∧ y = y' := by
  refine ⟨fun h => ⟨?_, ?_⟩, fun ⟨hx, hy⟩ => hx ▸ hy ▸ rfl⟩
  · simpa only [BitVec.extractLsb'_append_eq_left] using congrArg (BitVec.extractLsb' n m) h
  · simpa only [BitVec.extractLsb'_append_eq_right] using congrArg (BitVec.extractLsb' 0 n) h

theorem bitsAppend_eq_zero_iff {m n : Nat} {x : BitVec m} {y : BitVec n} : x ++ y = 0#(m + n) ↔ x = 0#m ∧ y = 0#n := by
  rw [← bitsAppend_inj]
  exact (congrArg (x ++ y = ·) BitVec.zero_append_zero.symm).to_iff

/-- The word with these fields, from bit 31 down (R70). -/
def joinFields (op rsv : BitVec 4) (node hdr byte : Byte) : BitVec (4 + 4 + 8 + 8 + 8) := op ++ rsv ++ node ++ hdr ++ byte

theorem joinFields_fields (w : Word) :
    joinFields (fieldOp w) (fieldRsv w) (fieldNode w) (fieldHdr w) (fieldByte w) = w := by
  unfold joinFields fieldOp fieldRsv fieldNode fieldHdr fieldByte
  rw [BitVec.extractLsb'_append_extractLsb'_eq_extractLsb' (show 28 = 24 + 4 from rfl),
    BitVec.extractLsb'_append_extractLsb'_eq_extractLsb' (show 24 = 16 + 8 from rfl),
    BitVec.extractLsb'_append_extractLsb'_eq_extractLsb' (show 16 = 8 + 8 from rfl),
    BitVec.extractLsb'_append_extractLsb'_eq_extractLsb' (show 8 = 0 + 8 from rfl)]
  exact BitVec.extractLsb'_eq_self

theorem joinFields_inj {op op' rsv rsv' : BitVec 4} {node node' hdr hdr' byte byte' : Byte} :
    joinFields op rsv node hdr byte = joinFields op' rsv' node' hdr' byte' ↔
      op = op' ∧ rsv = rsv' ∧ node = node' ∧ hdr = hdr' ∧ byte = byte' := by
  simp only [joinFields, bitsAppend_inj, and_assoc]

/-- A word is a join exactly when its fields are what was joined. -/
theorem joinFields_eq_iff {op rsv : BitVec 4} {node hdr byte : Byte} {w : Word} :
    joinFields op rsv node hdr byte = w ↔
      fieldOp w = op ∧ fieldRsv w = rsv ∧ fieldNode w = node ∧ fieldHdr w = hdr ∧ fieldByte w = byte := by
  conv_lhs => rw [← joinFields_fields w]
  exact eq_comm.trans joinFields_inj

theorem eq_iff_fields {w w' : Word} :
    w = w' ↔
      fieldOp w = fieldOp w' ∧ fieldRsv w = fieldRsv w' ∧ fieldNode w = fieldNode w' ∧ fieldHdr w = fieldHdr w' ∧
        fieldByte w = fieldByte w' := by
  conv_lhs => rw [← joinFields_fields w']
  exact eq_comm.trans joinFields_eq_iff

/-- A masked word has the wanted value exactly when each masked field has. -/
theorem and_eq_iff_fields {w mask value : Word} :
    w &&& mask = value ↔
      fieldOp w &&& fieldOp mask = fieldOp value ∧ fieldRsv w &&& fieldRsv mask = fieldRsv value ∧
        fieldNode w &&& fieldNode mask = fieldNode value ∧ fieldHdr w &&& fieldHdr mask = fieldHdr value ∧
        fieldByte w &&& fieldByte mask = fieldByte value := by
  rw [eq_iff_fields]
  simp only [fieldOp, fieldRsv, fieldNode, fieldHdr, fieldByte, BitVec.extractLsb'_and]

/-! ### The must-be-zero bits of the formats by fields (R71) -/

theorem low24_eq_zero_iff {w : Word} :
    w.extractLsb' 0 24 = 0#24 ↔ fieldNode w = 0x00#8 ∧ fieldHdr w = 0x00#8 ∧ fieldByte w = 0x00#8 := by
  have h : w.extractLsb' 0 24 = fieldNode w ++ fieldHdr w ++ fieldByte w := by
    unfold fieldNode fieldHdr fieldByte
    rw [BitVec.extractLsb'_append_extractLsb'_eq_extractLsb' (show 16 = 8 + 8 from rfl),
      BitVec.extractLsb'_append_extractLsb'_eq_extractLsb' (show 8 = 0 + 8 from rfl)]
  rw [h]
  exact bitsAppend_eq_zero_iff.trans ((and_congr_left' bitsAppend_eq_zero_iff).trans and_assoc)

theorem mid16_eq_zero_iff {w : Word} : w.extractLsb' 8 16 = 0#16 ↔ fieldNode w = 0x00#8 ∧ fieldHdr w = 0x00#8 := by
  have h : w.extractLsb' 8 16 = fieldNode w ++ fieldHdr w :=
    (BitVec.extractLsb'_append_extractLsb'_eq_extractLsb' (show 16 = 8 + 8 from rfl)).symm
  rw [h, bitsAppend_eq_zero_iff]

theorem fieldLen_eq_append (w : Word) : fieldLen w = fieldHdr w ++ fieldByte w :=
  (BitVec.extractLsb'_append_extractLsb'_eq_extractLsb' (show 8 = 0 + 8 from rfl)).symm

theorem fieldLen_eq_zero_iff {w : Word} : fieldLen w = 0#16 ↔ fieldHdr w = 0x00#8 ∧ fieldByte w = 0x00#8 := by
  rw [fieldLen_eq_append, bitsAppend_eq_zero_iff]

/-! ### The opcode map by fields (R72) -/

theorem and_nibble (x : BitVec 4) : x &&& 0xF#4 = x := BitVec.and_allOnes

theorem and_byte (x : Byte) : x &&& 0xFF#8 = x := BitVec.and_allOnes

theorem legalWord_iff {w : Word} :
    LegalWord w ↔ fieldRsv w = 0x0#4 ∧
      (fieldOp w = 0x1#4 ∧ fieldByte w = 0x00#8 ∨
        fieldOp w = 0x2#4 ∧ fieldNode w = 0x00#8 ∨
        fieldOp w = 0x3#4 ∧ (fieldNode w = 0x00#8 ∧ fieldHdr w = 0x00#8 ∧ fieldByte w = 0x00#8) ∨
        fieldOp w = 0x4#4 ∧ (fieldNode w = 0x00#8 ∧ fieldHdr w = 0x00#8 ∧ fieldByte w = 0x00#8) ∨
        fieldOp w = 0x5#4 ∧ (fieldNode w = 0x00#8 ∧ fieldHdr w = 0x00#8) ∨
        fieldOp w = 0x6#4 ∧ (fieldHdr w = 0x00#8 ∧ fieldByte w = 0x00#8)) := by
  rw [LegalWord, eq_iff_fields (w' := 0x30000000#32), eq_iff_fields (w' := 0x40000000#32)]
  simp only [and_eq_iff_fields]
  simp [fieldOp, fieldRsv, fieldNode, fieldHdr, fieldByte, and_nibble, and_byte, and_or_left, and_left_comm]

theorem opcodeMask_iff {w : Word} : w &&& 0xF0000000#32 = 0x20000000#32 ↔ fieldOp w = 0x2#4 := by
  rw [and_eq_iff_fields]
  simp [fieldOp, fieldRsv, fieldNode, fieldHdr, fieldByte, and_nibble]

theorem lengthMask_toNat (w : Word) : (w &&& 0x0000FFFF#32).toNat = (fieldLen w).toNat := by
  rw [fieldLen, BitVec.extractLsb'_toNat, BitVec.toNat_and]
  exact Nat.and_two_pow_sub_one_eq_mod w.toNat 16

/-! ### The encoder by fields (R71) -/

theorem encodeWord_txBegin_eq_iff {node hdr : Byte} {w : Word} :
    encodeWord (.txBegin node hdr) = w ↔
      fieldOp w = 0x1#4 ∧ fieldRsv w = 0x0#4 ∧ fieldNode w = node ∧ fieldHdr w = hdr ∧ fieldByte w = 0x00#8 :=
  joinFields_eq_iff

theorem encodeWord_txWrite_eq_iff {data : List Byte} {w : Word} :
    encodeWord (.txWrite data) = w ↔
      fieldOp w = 0x2#4 ∧ fieldRsv w = 0x0#4 ∧ fieldNode w = 0x00#8 ∧ fieldLen w = BitVec.ofNat 16 data.length := by
  have hw : fieldOp w ++ fieldRsv w ++ fieldNode w ++ fieldLen w = w := by
    unfold fieldOp fieldRsv fieldNode fieldLen
    rw [BitVec.extractLsb'_append_extractLsb'_eq_extractLsb' (show 28 = 24 + 4 from rfl),
      BitVec.extractLsb'_append_extractLsb'_eq_extractLsb' (show 24 = 16 + 8 from rfl),
      BitVec.extractLsb'_append_extractLsb'_eq_extractLsb' (show 16 = 0 + 16 from rfl)]
    exact BitVec.extractLsb'_eq_self
  conv_lhs => rw [eq_comm, ← hw]
  refine bitsAppend_inj.trans ?_
  simp only [bitsAppend_inj, and_assoc]

theorem encodeWord_txEnd_eq_iff {w : Word} :
    encodeWord .txEnd = w ↔
      fieldOp w = 0x3#4 ∧ fieldRsv w = 0x0#4 ∧ fieldNode w = 0x00#8 ∧ fieldHdr w = 0x00#8 ∧ fieldByte w = 0x00#8 := by
  rw [show encodeWord .txEnd = joinFields 0x3 0 0 0 0 by decide]
  exact joinFields_eq_iff

theorem encodeWord_txResync_eq_iff {w : Word} :
    encodeWord .txResync = w ↔
      fieldOp w = 0x4#4 ∧ fieldRsv w = 0x0#4 ∧ fieldNode w = 0x00#8 ∧ fieldHdr w = 0x00#8 ∧ fieldByte w = 0x00#8 := by
  rw [show encodeWord .txResync = joinFields 0x4 0 0 0 0 by decide]
  exact joinFields_eq_iff

theorem encodeWord_rxFeed_eq_iff {c : Byte} {w : Word} :
    encodeWord (.rxFeed c) = w ↔
      fieldOp w = 0x5#4 ∧ fieldRsv w = 0x0#4 ∧ fieldNode w = 0x00#8 ∧ fieldHdr w = 0x00#8 ∧ fieldByte w = c := by
  rw [show encodeWord (.rxFeed c) = joinFields 0x5 0 0 0 c by revert c; decide]
  exact joinFields_eq_iff

theorem encodeWord_rxStatus_eq_iff {node : Byte} {w : Word} :
    encodeWord (.rxStatus node) = w ↔
      fieldOp w = 0x6#4 ∧ fieldRsv w = 0x0#4 ∧ fieldNode w = node ∧ fieldHdr w = 0x00#8 ∧ fieldByte w = 0x00#8 := by
  rw [show encodeWord (.rxStatus node) = joinFields 0x6 0 node 0 0 by revert node; decide]
  exact joinFields_eq_iff

/-! ### The decoder by fields (R78) -/

theorem plainCommand_eq_ok_iff {n : Nat} {mustBeZero : BitVec n} {data : List Byte} {i j : Instr} :
    plainCommand mustBeZero data i = .ok j ↔ mustBeZero = 0#n ∧ data = [] ∧ i = j := by
  unfold plainCommand
  split
  · simp_all
  · split <;> simp_all

theorem writeCommand_eq_ok_iff {w : Word} {data : List Byte} {j : Instr} :
    writeCommand w data = .ok j ↔ fieldNode w = 0x00#8 ∧ data.length = (fieldLen w).toNat ∧ .txWrite data = j := by
  unfold writeCommand
  split
  · simp_all
  · split <;> simp_all

/-- R78: what each branch of the decoder asks of the fields, and what it answers. -/
theorem decode_eq_ok_iff {w : Word} {data : List Byte} {i : Instr} :
    decode w data = .ok i ↔ fieldRsv w = 0x0#4 ∧
      (fieldOp w = 0x1#4 ∧ fieldByte w = 0x00#8 ∧ data = [] ∧ .txBegin (fieldNode w) (fieldHdr w) = i ∨
        fieldOp w = 0x2#4 ∧ fieldNode w = 0x00#8 ∧ data.length = (fieldLen w).toNat ∧ .txWrite data = i ∨
        fieldOp w = 0x3#4 ∧ (fieldNode w = 0x00#8 ∧ fieldHdr w = 0x00#8 ∧ fieldByte w = 0x00#8) ∧ data = [] ∧ .txEnd = i ∨
        fieldOp w = 0x4#4 ∧ (fieldNode w = 0x00#8 ∧ fieldHdr w = 0x00#8 ∧ fieldByte w = 0x00#8) ∧ data = [] ∧ .txResync = i ∨
        fieldOp w = 0x5#4 ∧ (fieldNode w = 0x00#8 ∧ fieldHdr w = 0x00#8) ∧ data = [] ∧ .rxFeed (fieldByte w) = i ∨
        fieldOp w = 0x6#4 ∧ (fieldHdr w = 0x00#8 ∧ fieldByte w = 0x00#8) ∧ data = [] ∧ .rxStatus (fieldNode w) = i) := by
  rw [← low24_eq_zero_iff, ← mid16_eq_zero_iff, ← fieldLen_eq_zero_iff]
  simp only [← plainCommand_eq_ok_iff, ← writeCommand_eq_ok_iff]
  unfold decode
  split_ifs <;> simp_all

theorem fieldLen_eq_ofNat_iff {w : Word} {n : Nat} (h : n < 65536) : fieldLen w = BitVec.ofNat 16 n ↔ n = (fieldLen w).toNat := by
  rw [← BitVec.toNat_inj, BitVec.toNat_ofNat, Nat.mod_eq_of_lt h, eq_comm]

end Sys2Proof.Machine
end

section
/-! SUPPORT. The obligations about the command encoding (spec 30_encoding.md R70 to R78): decoding and encoding are inverse to each
other, the decoder accepts the opcode map, and what it rejects stops the machine. -/

namespace Sys2Proof.Machine

/-- Settles O1: the fields of an encoded word are those its format draws. -/
theorem decodeOfEncode : Obligations.DecodeOfEncode := by
  intro i hi
  rw [decode_eq_ok_iff]
  cases i with
  | txBegin node hdr =>
    obtain ⟨hop, hrsv, hnode, hhdr, hbyte⟩ := (encodeWord_txBegin_eq_iff (node := node) (hdr := hdr)).1 rfl
    exact ⟨hrsv, .inl ⟨hop, hbyte, rfl, by rw [hnode, hhdr]⟩⟩
  | txWrite data =>
    obtain ⟨hop, hrsv, hnode, hlen⟩ := (encodeWord_txWrite_eq_iff (data := data)).1 rfl
    have hlt : data.length < 2 ^ 16 := of_decide_eq_true hi
    exact ⟨hrsv, .inr (.inl ⟨hop, hnode, by rw [hlen, BitVec.toNat_ofNat, Nat.mod_eq_of_lt hlt]; rfl, rfl⟩)⟩
  | txEnd =>
    obtain ⟨hop, hrsv, hzero⟩ := encodeWord_txEnd_eq_iff.1 rfl
    exact ⟨hrsv, .inr (.inr (.inl ⟨hop, hzero, rfl, rfl⟩))⟩
  | txResync =>
    obtain ⟨hop, hrsv, hzero⟩ := encodeWord_txResync_eq_iff.1 rfl
    exact ⟨hrsv, .inr (.inr (.inr (.inl ⟨hop, hzero, rfl, rfl⟩)))⟩
  | rxFeed c =>
    obtain ⟨hop, hrsv, hnode, hhdr, hbyte⟩ := (encodeWord_rxFeed_eq_iff (c := c)).1 rfl
    exact ⟨hrsv, .inr (.inr (.inr (.inr (.inl ⟨hop, ⟨hnode, hhdr⟩, rfl, by rw [hbyte]⟩))))⟩
  | rxStatus node =>
    obtain ⟨hop, hrsv, hnode, hzero⟩ := (encodeWord_rxStatus_eq_iff (node := node)).1 rfl
    exact ⟨hrsv, .inr (.inr (.inr (.inr (.inr ⟨hop, hzero, rfl, by rw [hnode]⟩))))⟩

/-- Settles O2: each branch the decoder accepts fixes every field of the word, as the encoder's format does. -/
theorem encodeOfDecode : Obligations.EncodeOfDecode := by
  intro w data i h
  obtain ⟨hrsv, ⟨hop, hbyte, rfl, rfl⟩ | ⟨hop, hnode, hlen, rfl⟩ | ⟨hop, hzero, rfl, rfl⟩ | ⟨hop, hzero, rfl, rfl⟩ |
    ⟨hop, ⟨hnode, hhdr⟩, rfl, rfl⟩ | ⟨hop, hzero, rfl, rfl⟩⟩ := decode_eq_ok_iff.1 h
  · exact ⟨rfl, Prod.ext (encodeWord_txBegin_eq_iff.2 ⟨hop, hrsv, rfl, rfl, hbyte⟩) rfl⟩
  · have hword : fieldLen w = BitVec.ofNat 16 data.length := by rw [hlen, BitVec.ofNat_toNat, BitVec.setWidth_eq]
    exact ⟨decide_eq_true (hlen ▸ (fieldLen w).isLt), Prod.ext (encodeWord_txWrite_eq_iff.2 ⟨hop, hrsv, hnode, hword⟩) rfl⟩
  · exact ⟨rfl, Prod.ext (encodeWord_txEnd_eq_iff.2 ⟨hop, hrsv, hzero⟩) rfl⟩
  · exact ⟨rfl, Prod.ext (encodeWord_txResync_eq_iff.2 ⟨hop, hrsv, hzero⟩) rfl⟩
  · exact ⟨rfl, Prod.ext (encodeWord_rxFeed_eq_iff.2 ⟨hop, hrsv, hnode, hhdr, rfl⟩) rfl⟩
  · exact ⟨rfl, Prod.ext (encodeWord_rxStatus_eq_iff.2 ⟨hop, hrsv, rfl, hzero⟩) rfl⟩

/-- Settles O4: the decoder and the opcode map ask the same of every field; format W is the one with `OP` 0x2. -/
theorem decodeAcceptsExactlyTheOpcodeMap : Obligations.DecodeAcceptsExactlyTheOpcodeMap := by
  intro w data
  simp only [decode_eq_ok_iff, legalWord_iff, opcodeMask_iff, lengthMask_toNat, exists_and_left, exists_or, exists_eq', and_true]
  by_cases hop : fieldOp w = 0x2#4
  · simp [hop, and_assoc]
  · simp [hop, ← and_assoc, ← or_and_right]

/-- Settles O3: seven words and the all-zero word, each decoded. -/
theorem specWordsDecode : Obligations.SpecWordsDecode := by
  unfold Obligations.SpecWordsDecode
  decide

theorem runCommand_of_not_decode {w : Word} {data : List Byte} (h : ¬ ∃ i, decode w data = .ok i) (s : State) :
    runCommand w data s = .next (raise .illegalCommand s) := by
  unfold runCommand
  split
  next i hi => exact absurd ⟨i, hi⟩ h
  next => rfl

/-- R230: a marked state stops under the mark's name, unless a reset comes next. -/
theorem step_marked {s : State} {r : Fault} (hf : s.fault = some r) (hp : ∀ c more, s.pending ≠ .reset c :: more) :
    step s = .fault r := by
  cases hnext : s.pending with
  | nil => simp only [step, hnext, hf]
  | cons input rest =>
    cases input with
    | command w data => simp only [step, hnext, hf]
    | reset c => exact absurd hnext (hp c rest)

/-- Settles O5: the pair decodes to nothing (`decodeAcceptsExactlyTheOpcodeMap`), so the step raises `IllegalCommand`, and the
state it leads to is marked. -/
theorem illegalCommandStops : Obligations.IllegalCommandStops := by
  refine ⟨fun s w data rest hf hp hbad => ⟨?_, fun hrest => step_marked rfl hrest⟩, by decide⟩
  have hnone : ¬ ∃ i, decode w data = .ok i := by
    rw [decodeAcceptsExactlyTheOpcodeMap w data, not_and_or]
    exact hbad
  rw [step_command hf hp, runCommand_of_not_decode hnone]
  rfl

end Sys2Proof.Machine
end

section
/-! SUPPORT. The escaped bytes of R81 pair by pair (spec 30_encoding.md R81, R84), and the obligation that no break stands in them. -/

namespace Sys2Proof.Machine

/-- The pairs of a run, one after the other: a run is empty, or it is a pair's delimiters in front of a shorter run. -/
theorem runPairs_induction {motive : Nat → List Byte → Prop} (nil : motive 0 [])
    (pair : ∀ (k : Byte) (r : Nat) (pairs : List Byte), k ≠ 0x00 → motive r pairs → motive (k.toNat + r) (0x00 :: k :: pairs))
    (r : Nat) : motive r (runPairs r) := by
  induction r using Nat.strongRecOn with
  | ind r ih =>
    rcases Nat.lt_or_ge r 255 with hlt | hge
    · rcases Nat.eq_zero_or_pos r with rfl | hpos
      · exact nil
      · have hk : (BitVec.ofNat 8 r).toNat = r := Nat.mod_eq_of_lt (by omega)
        have hne : BitVec.ofNat 8 r ≠ 0x00 := fun h => hpos.ne' (hk ▸ congrArg BitVec.toNat h)
        have h := pair _ 0 [] hne nil
        rwa [hk, Nat.add_zero, ← runPairs_short hpos hlt] at h
    · obtain ⟨rest, rfl⟩ := Nat.exists_eq_add_of_le hge
      rw [runPairs_chunk]
      exact pair 0xFF rest _ (by decide) (ih rest (by omega))

/-- After every delimiter stands a byte that is no delimiter. -/
def DelimitersPaired (wire : List Byte) : Prop :=
  ∀ before after, wire = before ++ 0x00 :: after → ∃ k rest, after = k :: rest ∧ k ≠ 0x00

theorem delimitersPaired_nil : DelimitersPaired [] := fun _ _ h => absurd h.symm (List.append_ne_nil_of_right_ne_nil _ nofun)

theorem DelimitersPaired.literal {b : Byte} {wire : List Byte} (hb : b ≠ 0x00) (h : DelimitersPaired wire) :
    DelimitersPaired (b :: wire) := by
  intro before after e
  cases before with
  | nil => exact absurd (List.cons.inj e).1 hb
  | cons _ before => exact h before after (List.cons.inj e).2

theorem DelimitersPaired.pair {k : Byte} {wire : List Byte} (hk : k ≠ 0x00) (h : DelimitersPaired wire) :
    DelimitersPaired (0x00 :: k :: wire) := by
  intro before after e
  cases before with
  | nil => exact ⟨k, wire, (List.cons.inj e).2.symm, hk⟩
  | cons _ before => exact h.literal hk before after (List.cons.inj e).2

theorem DelimitersPaired.runPairs_append (r : Nat) {wire : List Byte} (h : DelimitersPaired wire) :
    DelimitersPaired (runPairs r ++ wire) :=
  runPairs_induction (motive := fun _ pairs => DelimitersPaired (pairs ++ wire)) h (fun _ _ _ hk ih => ih.pair hk) r

theorem delimitersPaired_escapeAfter (r : Nat) (frame : List Byte) : DelimitersPaired (escapeAfter r frame) := by
  induction frame generalizing r with
  | nil =>
    rw [escapeAfter, ← List.append_nil (runPairs r)]
    exact delimitersPaired_nil.runPairs_append r
  | cons b rest ih =>
    rw [escapeAfter]
    split
    · exact ih (r + 1)
    next hb => exact ((ih 0).literal hb).runPairs_append r

/-- Settles O31: escaped bytes are literals and pairs, byte by byte of the frame. -/
theorem escapedBytesHoldNoBreak : Obligations.EscapedBytesHoldNoBreak :=
  fun frame => delimitersPaired_escapeAfter 0 frame

end Sys2Proof.Machine
end

section
/-! SUPPORT. A whole frame through the transmit path (spec 30_encoding.md R79, R83, 41_transmit.md R145). -/

namespace Sys2Proof.Machine

theorem execAll_cons {i : Instr} {s t : State} (h : exec i s = .next t) (hf : t.fault = none) (rest : List Instr) :
    execAll (i :: rest) s = execAll rest t := by
  simp only [execAll, h, hf]

/-- Frame bytes written and the run flushed: on the wire stand their escaped bytes. -/
theorem escFlush_escPutAll (frame : List Byte) {s : State} (h : s.escRun.toNat ≤ 254) :
    escFlush (escPutAll frame s) =
      { s with
        txCrc := crcFold s.cfg s.txCrc frame
        escRun := 0
        txOut := s.txOut ++ (escapeAfter s.escRun.toNat frame).map .byte } := by
  obtain ⟨sent, hsent, e⟩ := escPutAll_eq frame h
  have hrun : (BitVec.ofNat 8 (openRun s.escRun.toNat frame % 255)).toNat = openRun s.escRun.toNat frame % 255 := by
    rw [BitVec.toNat_ofNat]
    omega
  rw [escFlush_eq (escPutAll_escRun_le frame h), e]
  simp only [hrun, ← hsent, List.map_append, List.append_assoc]

theorem escPutAll_txCrc (frame : List Byte) {s : State} (h : s.escRun.toNat ≤ 254) :
    (escPutAll frame s).txCrc = crcFold s.cfg s.txCrc frame := by
  obtain ⟨sent, -, e⟩ := escPutAll_eq frame h
  rw [e]

/-- R145: frame bytes written and the frame closed: on the wire stand the escaped bytes of the frame and its CRC, and a break. -/
theorem closeFrame_escPutAll (body : List Byte) {s : State} (h : s.escRun.toNat ≤ 254) :
    closeFrame (escPutAll body s) =
      { s with
        txActive := false
        escRun := 0
        txCrc := crcFold s.cfg s.txCrc (body ++ crcBytes (crcFold s.cfg s.txCrc body))
        txOut := s.txOut ++
          ((escapeAfter s.escRun.toNat (body ++ crcBytes (crcFold s.cfg s.txCrc body)) ++ breakBytes).map .byte ++ [.stop]) } := by
  rw [closeFrame, ← escPutAll_append, escFlush_escPutAll _ h, escPutAll_txCrc body h]
  simp only [emitBreak, emitPair, emit, crcBytes, breakBytes, List.map_append, List.map_cons, List.map_nil, List.append_assoc,
    List.cons_append, List.nil_append]

theorem escPutAll_txActive (frame : List Byte) (s : State) : (escPutAll frame s).txActive = s.txActive := by
  obtain ⟨_, _, _, e⟩ := escPutAll_frame frame s
  rw [e]

theorem escPutAll_fault (frame : List Byte) (s : State) : (escPutAll frame s).fault = s.fault := by
  obtain ⟨_, _, _, e⟩ := escPutAll_frame frame s
  rw [e]

theorem escPutAll_cfg (frame : List Byte) (s : State) : (escPutAll frame s).cfg = s.cfg := by
  obtain ⟨_, _, _, e⟩ := escPutAll_frame frame s
  rw [e]

/-- Writes to an open frame, each within `MAX_TRANSMIT`, put their bytes through the escaper as one list (R125). -/
theorem execAll_txWrites {writes : List (List Byte)} {s : State} (ha : s.txActive = true) (hf : s.fault = none)
    (h : ∀ data ∈ writes, data.length ≤ s.cfg.maxTransmit) (rest : List Instr) :
    execAll (writes.map .txWrite ++ rest) s = execAll rest (escPutAll writes.flatten s) := by
  induction writes generalizing s with
  | nil => rfl
  | cons data writes ih =>
    rw [List.map_cons, List.cons_append,
      execAll_cons (exec_txWrite_sends ha (h data List.mem_cons_self)) ((escPutAll_fault ..).trans hf),
      ih ((escPutAll_txActive ..).trans ha) ((escPutAll_fault ..).trans hf), List.flatten_cons, escPutAll_append]
    intro d hd
    rw [escPutAll_cfg]
    exact h d (List.mem_cons_of_mem _ hd)

theorem closeFrame_fault (s : State) : (closeFrame s).fault = s.fault := by
  obtain ⟨_, _, _, e⟩ := closeFrame_frame s
  rw [e]

/-- Writes to an open frame and TX_END: their bytes through the escaper, and the frame closed. -/
theorem execAll_txWrites_txEnd {writes : List (List Byte)} {s : State} (ha : s.txActive = true) (hf : s.fault = none)
    (h : ∀ data ∈ writes, data.length ≤ s.cfg.maxTransmit) :
    execAll (writes.map .txWrite ++ [.txEnd]) s = .next (closeFrame (escPutAll writes.flatten s)) := by
  have hend : (closeFrame (escPutAll writes.flatten s)).fault = none := by rw [closeFrame_fault, escPutAll_fault, hf]
  rw [execAll_txWrites ha hf h, execAll_cons (exec_txEnd_active ((escPutAll_txActive ..).trans ha)) hend]
  rfl

/-- TX_BEGIN to a valid node, writes and TX_END run: the frame is opened, its bytes up to the CRC go through the escaper, and it is
closed (R79). -/
theorem execAll_frame {s : State} {node : Byte} (hdr : Byte) {writes : List (List Byte)} (hf : s.fault = none)
    (hn : node.toNat < s.cfg.maxNodes) (h : ∀ data ∈ writes, data.length ≤ s.cfg.maxTransmit) :
    execAll (.txBegin node hdr :: (writes.map .txWrite ++ [.txEnd])) s =
      .next (closeFrame (escPutAll (frameBody node (tableGet s.txSeq node) hdr writes.flatten) (openFrame node s))) := by
  have hopen : (openFrame node s).fault = none := by rw [openFrame_eq, hf]
  have hcfg : (openFrame node s).cfg = s.cfg := by rw [openFrame_eq]
  rw [execAll_cons (exec_txBegin_valid hdr hn) ((escPutAll_fault ..).trans hopen),
    execAll_txWrites_txEnd ((escPutAll_txActive ..).trans (openFrame_txActive ..)) ((escPutAll_fault ..).trans hopen)
      (by rwa [escPutAll_cfg, hcfg]),
    ← escPutAll_append]
  rfl

/-- Settles O30: the run is the escaper over the frame's bytes, which sends their escaped bytes. -/
theorem frameOnTheWire : Obligations.FrameOnTheWire := by
  intro s node hdr writes _ hf hn hw
  refine ⟨_, execAll_frame hdr hf hn hw, ?_⟩
  rw [openFrame_eq, closeFrame_escPutAll _ (Nat.zero_le _)]
  refine ⟨?_, rfl, rfl, rfl, rfl⟩
  cases hb : s.txActive || s.needBreak <;> simp [breakDue, hb, wireFrame, escape, frameBytes, breakBytes]

end Sys2Proof.Machine
end

section
/-! SUPPORT. Escaped bytes through the decoder (spec 30_encoding.md R81, 42_receive.md R165 to R167): a pair is the appends of its zero
bytes, a literal its own append, and so a wire of escaped bytes is the appends of the frame bytes. -/

namespace Sys2Proof.Machine

theorem feedAll_cons {c : Byte} {s t : State} (h : execRxFeed c s = .next t) (hf : t.fault = none) (rest : List Byte) :
    feedAll (c :: rest) s = feedAll rest t :=
  execAll_cons (i := .rxFeed c) h hf (receiveBytes rest)

/-- Receiving, unmarked and not inside a pair: the decoder between two tokens of a frame (R85). -/
structure State.BetweenTokens (s : State) : Prop where
  busy : s.rxBusy = true
  delim : s.delim = 0
  unmarked : s.fault = none

theorem State.BetweenTokens.append {s : State} (h : s.BetweenTokens) (bytes : List Byte) :
    (rxAppendAll bytes s).BetweenTokens := by
  obtain ⟨_, _, _, _, e⟩ := rxAppendAll_frame bytes s
  rw [e]
  exact { h with }

/-- `Append` neither reads nor writes the delimiter counter. -/
theorem rxAppendAll_withDelim (bytes : List Byte) (s : State) (d : Fin 3) :
    rxAppendAll bytes { s with delim := d } = { rxAppendAll bytes s with delim := d } := by
  induction bytes generalizing s with
  | nil => rfl
  | cons b rest ih =>
    have hb : rxAppend b { s with delim := d } = { rxAppend b s with delim := d } := by
      unfold rxAppend
      dsimp only
      split <;> rfl
    rw [rxAppendAll, hb, ih, rxAppendAll]

theorem State.BetweenTokens.clearDelim {s : State} (h : s.BetweenTokens) : { s with delim := 0 } = s := by
  rw [← h.delim]

section
variable {s : State} (h : s.BetweenTokens)
include h

theorem feedAll_literal {b : Byte} (hb : b ≠ 0x00) (rest : List Byte) :
    feedAll (b :: rest) s = feedAll rest (rxAppendAll [b] s) := by
  have e := execRxFeed_literal hb h.busy (by rw [h.delim]; decide)
  rw [(h.append [b]).clearDelim] at e
  exact feedAll_cons e (h.append [b]).unmarked rest

theorem feedAll_pair {k : Byte} (hk : k ≠ 0x00) (rest : List Byte) :
    feedAll (0x00 :: k :: rest) s = feedAll rest (rxAppendAll (List.replicate k.toNat 0x00) s) := by
  have hchunk := execRxFeed_chunk (s := { s with delim := 1 }) hk h.busy rfl
  have hclear := (h.append (List.replicate k.toNat 0x00)).clearDelim
  rw [rxAppendAll_withDelim] at hchunk
  rw [feedAll_cons (execRxFeed_delimiter_first h.busy h.delim) h.unmarked, feedAll_cons (hchunk.trans (congrArg _ hclear))]
  exact (h.append _).unmarked

end

/-- R166: the pairs of a run are the appends of its zero bytes. -/
theorem feedAll_runPairs (r : Nat) {s : State} (h : s.BetweenTokens) (rest : List Byte) :
    feedAll (runPairs r ++ rest) s = feedAll rest (rxAppendAll (List.replicate r 0x00) s) := by
  refine runPairs_induction
    (motive := fun r pairs => ∀ s : State, s.BetweenTokens →
      feedAll (pairs ++ rest) s = feedAll rest (rxAppendAll (List.replicate r 0x00) s))
    (fun _ _ => rfl) (fun k r pairs hk ih s h => ?_) r s h
  rw [List.cons_append, List.cons_append, feedAll_pair h hk, ih _ (h.append _), ← rxAppendAll_append,
    List.replicate_append_replicate]

/-- The escaped bytes of a frame are the appends of its bytes, the open run's zero bytes first. -/
theorem feedAll_escapeAfter (frame : List Byte) (r : Nat) {s : State} (h : s.BetweenTokens) (rest : List Byte) :
    feedAll (escapeAfter r frame ++ rest) s = feedAll rest (rxAppendAll (List.replicate r 0x00 ++ frame) s) := by
  induction frame generalizing r s with
  | nil => rw [escapeAfter, List.append_nil, feedAll_runPairs r h]
  | cons b frame ih =>
    by_cases hb : b = 0x00
    · rw [escapeAfter, if_pos hb, ih (r + 1) h, hb, List.replicate_succ', List.append_assoc, List.singleton_append]
    · rw [escapeAfter, if_neg hb, List.append_assoc, feedAll_runPairs r h, List.cons_append,
        feedAll_literal (h.append _) hb, ih 0 ((h.append _).append _), ← rxAppendAll_append, ← rxAppendAll_append]
      rfl

/-- What a valid marker leaves: the assembly open, empty, from its node (R165). -/
def openAssembly (node : Byte) (s : State) : State :=
  { s with
    rxNode := node
    rxLen := 0
    rxOvf := false
    rxCrc := crcStep s.cfg s.cfg.crcInit (markerOf node)
    rxBusy := true
    delim := 0 }

theorem openAssembly_betweenTokens (node : Byte) {s : State} (hf : s.fault = none) : (openAssembly node s).BetweenTokens :=
  ⟨rfl, rfl, hf⟩

section
variable {s : State} {node : Byte} (hinv : s.Inv) (hn : node.toNat < s.cfg.maxNodes) (hs : decoderState s = .addressing)
include hinv hn hs

theorem execRxFeed_markerOf : execRxFeed (markerOf node) s = .next (openAssembly node s) := by
  obtain ⟨hcfg, -, -⟩ := State.inv_iff.1 hinv
  obtain ⟨hb, hd⟩ := decoderState_addressing.1 hs
  rw [execRxFeed_marker (markerOf_ne_zero hcfg hn) hb hd, rxMarker, nodeOf_markerOf,
    if_pos (show validNode s.cfg node = true from decide_eq_true hn)]
  rfl

/-- An escaped frame fed in Addressing: the marker opens the assembly, and the frame's other bytes are appended. -/
theorem feedAll_escape_frame (hf : s.fault = none) (bytes rest : List Byte) :
    feedAll (escape (markerOf node :: bytes) ++ rest) s = feedAll rest (rxAppendAll bytes (openAssembly node s)) := by
  obtain ⟨hcfg, -, -⟩ := State.inv_iff.1 hinv
  rw [escape, escapeAfter, if_neg (markerOf_ne_zero hcfg hn), runPairs_zero, List.nil_append, List.cons_append,
    feedAll_cons (execRxFeed_markerOf hinv hn hs) hf]
  exact feedAll_escapeAfter bytes 0 (openAssembly_betweenTokens node hf) rest

end

theorem Memory.bytes_of_reads {bytes : List Byte} {m : Memory} {start : Nat}
    (h : ∀ k < bytes.length, Memory.read m (start + k) = bytes.getD k 0x00) : Memory.bytes m start bytes.length = bytes := by
  induction bytes generalizing start with
  | nil => rfl
  | cons b rest ih =>
    rw [List.length_cons, Memory.bytes, ih fun k hk => ?_]
    · exact congrArg (· :: rest) (h 0 (by simp))
    · rw [Nat.add_assoc, Nat.add_comm 1 k]
      exact h (k + 1) (by simpa using hk)

/-- Bytes that fit, appended to an empty assembly, are what the buffer then holds (R171). -/
theorem rxAppendAll_empty {s : State} {bytes : List Byte} (hempty : s.rxLen = 0) (hfit : bytes.length ≤ s.cfg.rxCapacity)
    (hwf : Memory.wf s.rxBuf = true) :
    ∃ buf : Memory,
      rxAppendAll bytes s =
        { s with
          rxBuf := buf
          rxLen := bytes.length
          rxCrc := crcFold s.cfg s.rxCrc (Memory.bytes buf 0 (bytes.length - 2)) } ∧
      Memory.bytes buf 0 bytes.length = bytes := by
  obtain ⟨buf, e, -, -, hread⟩ := rxAppendAll_eq bytes (hempty ▸ Nat.zero_le _) hwf
  rw [hempty, Nat.zero_add, Nat.min_eq_right hfit] at e hread
  refine ⟨buf, ?_, Memory.bytes_of_reads fun k hk => ?_⟩
  · rw [e, decide_eq_false (Nat.not_lt.2 hfit), Bool.or_false]
    rfl
  · rw [Nat.zero_add, hread, if_pos ⟨Nat.zero_le k, hk⟩]
    rfl

/-- Settles O46: the feed is the marker and then the appends of the frame's bytes, which fit. -/
theorem decoderRestoresFrameBytes : Obligations.DecoderRestoresFrameBytes := by
  intro s node bytes hinv hf hs hn hfit
  obtain ⟨-, -, hrx⟩ := State.inv_iff.1 hinv
  obtain ⟨buf, e, hbytes⟩ := rxAppendAll_empty (s := openAssembly node s) rfl hfit hrx.buf_wf
  have hfeed := feedAll_escape_frame hinv hn hs hf bytes []
  rw [List.append_nil, e] at hfeed
  exact ⟨_, hfeed, rfl, rfl, rfl, rfl, rfl, hbytes, rfl⟩

end Sys2Proof.Machine
end

section
/-! SUPPORT. The assembler (spec 30_encoding.md R86): a line is read word by word, so the words of a written line are found first and
then what they parse to. -/

namespace Sys2Proof.Machine

/-! ### Characters -/

/-- A character of a word: it neither ends one nor starts a comment. -/
abbrev WordChar (ch : Char) : Prop := ch ≠ ' ' ∧ ch ≠ ',' ∧ ch ≠ '[' ∧ ch ≠ ']' ∧ ch ≠ ';'

theorem WordChar.ne_semicolon {ch : Char} : WordChar ch → ch ≠ ';'
  | ⟨_, _, _, _, h⟩ => h

theorem wordChar_digitChar : ∀ n < 16, WordChar (digitChar n) := by decide

theorem hexDigit_digitChar : ∀ n < 16, hexDigit (digitChar n) = some n := by decide

theorem high_nibble_lt (b : Byte) : b.toNat / 16 < 16 := by omega

theorem low_nibble_lt (b : Byte) : b.toNat % 16 < 16 := by omega

theorem wordChar_hexPair (b : Byte) : ∀ ch ∈ hexPair b, WordChar ch := by
  simp only [hexPair, List.forall_mem_cons]
  exact ⟨wordChar_digitChar _ (high_nibble_lt b), wordChar_digitChar _ (low_nibble_lt b), nofun⟩

theorem wordChar_asmNumber (b : Byte) : ∀ ch ∈ asmNumber b, WordChar ch := by
  simp only [asmNumber, List.forall_mem_cons]
  exact ⟨by decide, by decide, wordChar_hexPair b⟩

/-! ### Reading words back -/

theorem byteOfDigits_hexPair (b : Byte) : byteOfDigits 16 hexDigit (hexPair b) = some b := by
  have hb : b.toNat / 16 * 16 + b.toNat % 16 = b.toNat := Nat.div_add_mod' ..
  have hhigh := hexDigit_digitChar _ (high_nibble_lt b)
  have hlow := hexDigit_digitChar _ (low_nibble_lt b)
  simp [byteOfDigits, hexPair, digitsFrom, hhigh, hlow, hb, b.isLt]

theorem parseNumber_asmNumber (b : Byte) : parseNumber (asmNumber b) = some b := byteOfDigits_hexPair b

theorem parseHexPair_hexPair (b : Byte) : parseHexPair (hexPair b) = some b := byteOfDigits_hexPair b

theorem parseBytes_cons {word : List Char} {rest : List (List Char)} (h : rest ≠ []) :
    parseBytes (word :: rest) = (parseHexPair word).bind fun b => (parseBytes rest).map (b :: ·) := by
  cases rest with
  | nil => exact absurd rfl h
  | cons next rest => rfl

theorem parseBytes_hexPairs (data : List Byte) : parseBytes (data.map hexPair ++ [[']']]) = some data := by
  induction data with
  | nil => rfl
  | cons b rest ih =>
    rw [List.map_cons, List.cons_append, parseBytes_cons (by simp), ih, parseHexPair_hexPair]
    rfl

/-! ### The words of a line -/

/-- The words of the line of a command. -/
def asmWords : Instr → List (List Char)
  | .txBegin node hdr => ["TX_BEGIN".toList, asmNumber node, [','], asmNumber hdr]
  | .txWrite data => "TX_WRITE".toList :: ['['] :: (data.map hexPair ++ [[']']])
  | .txEnd => ["TX_END".toList]
  | .txResync => ["TX_RESYNC".toList]
  | .rxFeed c => ["RX_FEED".toList, asmNumber c]
  | .rxStatus node => ["RX_STATUS".toList, asmNumber node]

theorem wordsFrom_wordChars {cs : List Char} (h : ∀ ch ∈ cs, WordChar ch) (word rest : List Char) :
    wordsFrom word (cs ++ rest) = wordsFrom (word ++ cs) rest := by
  induction cs generalizing word with
  | nil => rw [List.append_nil, List.nil_append]
  | cons ch cs ih =>
    obtain ⟨⟨hspace, hcomma, hopen, hclose, -⟩, hcs⟩ := List.forall_mem_cons.1 h
    rw [List.cons_append, wordsFrom]
    simp only [hspace, hcomma, hopen, hclose, if_false, or_self]
    rw [ih hcs, List.append_assoc]
    rfl

section
variable {cs : List Char} (h : ∀ ch ∈ cs, WordChar ch) (hne : cs ≠ [])
include h hne

theorem wordsFrom_word_end : wordsFrom [] cs = [cs] := by
  have hw := wordsFrom_wordChars h [] []
  rwa [List.append_nil, List.nil_append, wordsFrom, if_neg hne] at hw

theorem wordsFrom_word_space (rest : List Char) : wordsFrom [] (cs ++ ' ' :: rest) = cs :: wordsFrom [] rest := by
  rw [wordsFrom_wordChars h, List.nil_append, wordsFrom]
  simp only [if_neg hne, if_true, List.cons_append, List.nil_append]

theorem wordsFrom_word_comma (rest : List Char) : wordsFrom [] (cs ++ ',' :: rest) = cs :: [','] :: wordsFrom [] rest := by
  rw [wordsFrom_wordChars h, List.nil_append, wordsFrom]
  simp [hne]

end

theorem wordsFrom_space (rest : List Char) : wordsFrom [] (' ' :: rest) = wordsFrom [] rest := rfl

theorem wordsFrom_bracket (rest : List Char) : wordsFrom [] ('[' :: rest) = ['['] :: wordsFrom [] rest := rfl

theorem wordsFrom_asmNumber (b : Byte) : wordsFrom [] (asmNumber b) = [asmNumber b] :=
  wordsFrom_word_end (wordChar_asmNumber b) nofun

theorem wordsFrom_asmBytes (data : List Byte) : wordsFrom [] (asmBytes data ++ [']']) = data.map hexPair ++ [[']']] := by
  induction data with
  | nil => rfl
  | cons b rest ih =>
    rw [asmBytes, List.append_assoc, List.cons_append, wordsFrom_word_space (wordChar_hexPair b) nofun, ih]
    rfl

/-! ### The line of each command, its mnemonic apart -/

theorem asmLine_txBegin (node hdr : Byte) :
    asmLine (.txBegin node hdr) = "TX_BEGIN".toList ++ ' ' :: (asmNumber node ++ ',' :: ' ' :: asmNumber hdr) := rfl

theorem asmLine_txWrite (data : List Byte) :
    asmLine (.txWrite data) = "TX_WRITE".toList ++ ' ' :: '[' :: (asmBytes data ++ [']']) := rfl

theorem asmLine_txEnd : asmLine .txEnd = "TX_END".toList := rfl

theorem asmLine_txResync : asmLine .txResync = "TX_RESYNC".toList := rfl

theorem asmLine_rxFeed (c : Byte) : asmLine (.rxFeed c) = "RX_FEED".toList ++ ' ' :: asmNumber c := rfl

theorem asmLine_rxStatus (node : Byte) : asmLine (.rxStatus node) = "RX_STATUS".toList ++ ' ' :: asmNumber node := rfl

theorem wordsFrom_asmLine (i : Instr) : wordsFrom [] (asmLine i) = asmWords i := by
  cases i with
  | txBegin node hdr =>
    rw [asmLine_txBegin, wordsFrom_word_space (by simp [WordChar]) (by simp), wordsFrom_word_comma (wordChar_asmNumber node) nofun,
      wordsFrom_space, wordsFrom_asmNumber]
    rfl
  | txWrite data =>
    rw [asmLine_txWrite, wordsFrom_word_space (by simp [WordChar]) (by simp), wordsFrom_bracket, wordsFrom_asmBytes]
    rfl
  | txEnd => exact wordsFrom_word_end (by simp [asmLine_txEnd, WordChar]) (by simp [asmLine_txEnd])
  | txResync => exact wordsFrom_word_end (by simp [asmLine_txResync, WordChar]) (by simp [asmLine_txResync])
  | rxFeed c =>
    rw [asmLine_rxFeed, wordsFrom_word_space (by simp [WordChar]) (by simp), wordsFrom_asmNumber]
    rfl
  | rxStatus node =>
    rw [asmLine_rxStatus, wordsFrom_word_space (by simp [WordChar]) (by simp), wordsFrom_asmNumber]
    rfl

/-! ### A written line holds no comment -/

theorem dropComment_eq_self {cs : List Char} (h : ∀ ch ∈ cs, ch ≠ ';') : dropComment cs = cs := by
  induction cs with
  | nil => rfl
  | cons ch cs ih =>
    obtain ⟨hch, hcs⟩ := List.forall_mem_cons.1 h
    rw [dropComment, if_neg hch, ih hcs]

theorem asmBytes_ne_semicolon (data : List Byte) : ∀ ch ∈ asmBytes data, ch ≠ ';' := by
  induction data with
  | nil => exact nofun
  | cons b rest ih =>
    rw [asmBytes, List.forall_mem_append, List.forall_mem_cons]
    exact ⟨fun ch h => (wordChar_hexPair b ch h).ne_semicolon, by decide, ih⟩

theorem asmNumber_ne_semicolon (b : Byte) : ∀ ch ∈ asmNumber b, ch ≠ ';' :=
  fun ch h => (wordChar_asmNumber b ch h).ne_semicolon

theorem asmLine_ne_semicolon (i : Instr) : ∀ ch ∈ asmLine i, ch ≠ ';' := by
  cases i with
  | txBegin node hdr =>
    simp only [asmLine_txBegin, List.forall_mem_append, List.forall_mem_cons]
    exact ⟨by simp, by decide, asmNumber_ne_semicolon node, by decide, by decide, asmNumber_ne_semicolon hdr⟩
  | txWrite data =>
    simp only [asmLine_txWrite, List.forall_mem_append, List.forall_mem_cons]
    exact ⟨by simp, by decide, by decide, asmBytes_ne_semicolon data, by decide, nofun⟩
  | txEnd => simp [asmLine_txEnd]
  | txResync => simp [asmLine_txResync]
  | rxFeed c =>
    simp only [asmLine_rxFeed, List.forall_mem_append, List.forall_mem_cons]
    exact ⟨by simp, by decide, asmNumber_ne_semicolon c⟩
  | rxStatus node =>
    simp only [asmLine_rxStatus, List.forall_mem_append, List.forall_mem_cons]
    exact ⟨by simp, by decide, asmNumber_ne_semicolon node⟩

/-- Settles O6: a written line holds no comment, its words are those of `asmWords`, and each operand among them reads back. -/
theorem assemblyReadsBack : Obligations.AssemblyReadsBack := by
  intro i
  rw [parseLine, dropComment_eq_self (asmLine_ne_semicolon i), wordsFrom_asmLine]
  cases i with
  | txBegin node hdr => simp [asmWords, parseNumber_asmNumber]
  | txWrite data => simp [asmWords, parseBytes_hexPairs]
  | txEnd => rfl
  | txResync => rfl
  | rxFeed c => simp [asmWords, parseNumber_asmNumber]
  | rxStatus node => simp [asmWords, parseNumber_asmNumber]

end Sys2Proof.Machine
end

section
/-! SUPPORT. The obligation about the receive accumulator (spec 40_crc.md R107, R108): a marker starts it, an append keeps it two
bytes behind the fill length, and nothing else touches it while Receiving. -/

namespace Sys2Proof.Machine

/-- R107: the accumulator is the CRC over the marker and all assembled bytes but the last two, whether or not a frame is open. -/
def State.CrcTwoBehind (s : State) : Prop :=
  s.rxCrc = crcFold s.cfg s.cfg.crcInit (markerOf s.rxNode :: Memory.bytes s.rxBuf 0 (s.rxLen - 2))

theorem State.CrcTwoBehind.rxCrcInv {s : State} (h : s.CrcTwoBehind) : s.RxCrcInv := fun _ => h

/-- A byte with room is written past the bytes the accumulator covers; from the third byte on, the accumulator takes one more of
them (R171). -/
theorem State.CrcTwoBehind.append {s : State} (h : s.CrcTwoBehind) (b : Byte) : (rxAppend b s).CrcTwoBehind := by
  unfold State.CrcTwoBehind at *
  by_cases hroom : s.rxLen < s.cfg.rxCapacity
  · have hbytes := Memory.bytes_write_past s.rxBuf (start := 0) (n := s.rxLen - 2) (k := s.rxLen) b (by omega)
    rw [rxAppend, if_pos hroom]
    by_cases htwo : 2 ≤ s.rxLen
    · have hnext : s.rxLen + 1 - 2 = s.rxLen - 2 + 1 := by omega
      simp only [if_pos htwo, hnext, Memory.bytes_snoc, hbytes, Nat.zero_add, h, ← List.cons_append, crcFold_append, crcFold_cons,
        crcFold_nil]
    · have hnext : s.rxLen + 1 - 2 = s.rxLen - 2 := by omega
      simpa only [if_neg htwo, hnext, hbytes] using h
  · rw [rxAppend, if_neg hroom]
    exact h

theorem State.CrcTwoBehind.appendAll {s : State} (h : s.CrcTwoBehind) (bytes : List Byte) :
    (rxAppendAll bytes s).CrcTwoBehind := by
  induction bytes generalizing s with
  | nil => exact h
  | cons b rest ih => exact ih (h.append b)

/-- A valid marker starts the accumulator with itself, no byte assembled (R165); an invalid one opens nothing. -/
theorem marker_rxCrcInv {s : State} (hb : s.rxBusy = false) (c : Byte) : State.RxCrcInv { rxMarker c s with delim := 0 } := by
  unfold rxMarker
  split
  · refine State.CrcTwoBehind.rxCrcInv ?_
    simp only [State.CrcTwoBehind, markerOf_nodeOf]
    rfl
  · exact fun hbusy => absurd (hb.symm.trans hbusy) (by decide)

/-- RX_FEED, along the decoder's branches (R160). -/
theorem execRxFeed_keeps_rxCrcInv {s t : State} (h : s.RxCrcInv) {c : Byte} (e : execRxFeed c s = .next t) : t.RxCrcInv := by
  cases hb : s.rxBusy with
  | false =>
    have hidle : ∀ d, State.RxCrcInv { s with delim := d } := fun _ hbusy => absurd (hb.symm.trans hbusy) (by decide)
    by_cases hc : c = 0x00
    · subst hc
      cases (execRxFeed_delimiter_outside hb).symm.trans e
      exact hidle _
    · by_cases hd : s.delim = 2
      · cases (execRxFeed_marker hc hb hd).symm.trans e
        exact marker_rxCrcInv hb c
      · cases (execRxFeed_idle hc hb hd).symm.trans e
        exact hidle 0
  | true =>
    have hcrc : s.CrcTwoBehind := h hb
    by_cases hc : c = 0x00
    · subst hc
      by_cases hd : s.delim = 0
      · cases (execRxFeed_delimiter_first hb hd).symm.trans e
        exact h
      · cases (execRxFeed_delimiter_completes hb hd).symm.trans e
        exact nofun
    · by_cases hd : s.delim = 1
      · cases (execRxFeed_chunk hc hb hd).symm.trans e
        exact (hcrc.appendAll _).rxCrcInv
      · cases (execRxFeed_literal hc hb hd).symm.trans e
        exact (hcrc.appendAll _).rxCrcInv

/-- Of the commands only RX_FEED writes what R108 speaks of. -/
theorem exec_keeps_rxCrcInv {i : Instr} {s t : State} (h : s.RxCrcInv) (e : exec i s = .next t) : t.RxCrcInv := by
  cases hi : isTransmit i with
  | true =>
    obtain ⟨_, e', _, _, _, _, _, _, _, _, rfl⟩ := exec_transmitWrites hi s
    cases e'.symm.trans e
    exact h
  | false =>
    cases i with
    | rxFeed c => exact execRxFeed_keeps_rxCrcInv h e
    | rxStatus node =>
      rcases Nat.lt_or_ge node.toNat s.cfg.maxNodes with hn | hn
      · cases (exec_rxStatus_valid hn).symm.trans e
        exact h
      · cases (exec_rxStatus_bad hn).symm.trans e
        exact h
    | txBegin node hdr => cases hi
    | txWrite data => cases hi
    | txEnd => cases hi
    | txResync => cases hi

/-- Settles O15, along what a step can do: a reset leaves the decoder outside a frame, and neither an illegal command nor waiting
writes the receive path. -/
theorem stepKeepsReceiveCrc : Obligations.StepKeepsReceiveCrc := by
  intro s t h hstep
  obtain ⟨c, rest, -, -, rfl⟩ | ⟨w, data, rest, i, -, -, -, e⟩ | ⟨w, data, rest, err, -, -, -, rfl⟩ | ⟨-, -, rfl⟩ :=
    step_cases hstep
  · exact nofun
  · exact exec_keeps_rxCrcInv (s := { s with pending := rest }) h e
  · exact h
  · exact h

end Sys2Proof.Machine
end

section
/-! SUPPORT. The reference CRC (spec 40_crc.md R101): its rounds, and the obligation that a sequence followed by its
own CRC folds to zero (R111). -/

namespace Sys2Proof.Machine

theorem crcStepReference_eq_iterate (crc : Half) (b : Byte) : crcStepReference crc b = crcRound^[8] (crc ^^^ b.setWidth 16) := rfl

theorem crcStep_reference {c : Config} (hc : c.crcAlgorithm = .reference) (crc : Half) (b : Byte) :
    crcStep c crc b = crcStepReference crc b := by
  simp only [crcStep, hc]

/-- As long as the bits shifted out are zero, the rounds only shift. -/
theorem crcRound_iterate_of_low_zero {n : Nat} {crc : Half} (h : ∀ i < n, crc.getLsbD i = false) :
    crcRound^[n] crc = crc >>> n := by
  induction n with
  | zero => rfl
  | succ n ih =>
    have hbit : (crc >>> n).getLsbD 0 = false := by
      rw [BitVec.getLsbD_ushiftRight]
      exact h n n.lt_succ_self
    rw [Function.iterate_succ_apply', ih fun i hi => h i (by omega), crcRound, hbit, BitVec.shiftRight_add]
    rfl

theorem setWidth_lowByte_getLsbD (crc : Half) {i : Nat} (h : i < 8) : ((lowByte crc).setWidth 16).getLsbD i = crc.getLsbD i := by
  simp [lowByte, h, show i < 16 by omega]

/-- A CRC's own low byte cancels its low bits, so the eight rounds bring its high byte down. -/
theorem crcStepReference_lowByte (crc : Half) : crcStepReference crc (lowByte crc) = (highByte crc).setWidth 16 := by
  have hlow : ∀ i < 8, (crc ^^^ (lowByte crc).setWidth 16).getLsbD i = false := fun i hi => by
    rw [BitVec.getLsbD_xor, setWidth_lowByte_getLsbD crc hi, Bool.xor_self]
  rw [crcStepReference_eq_iterate, crcRound_iterate_of_low_zero hlow]
  refine BitVec.eq_of_getLsbD_eq fun i hi => ?_
  have hhigh : 8 ≤ i → crc.getLsbD (8 + i) = false := fun h => BitVec.getLsbD_of_ge crc _ (by omega)
  rcases Nat.lt_or_ge i 8 with h | h
  · simp [lowByte, highByte, hi, h]
  · simp [lowByte, highByte, hhigh h]

theorem crcStepReference_self (b : Byte) : crcStepReference (b.setWidth 16) b = 0x0000 := by
  rw [crcStepReference_eq_iterate, BitVec.xor_self]
  decide

/-- R111 at the accumulator: whatever a CRC is, its own two bytes bring it to zero. -/
theorem crcFold_crcBytes {c : Config} (hc : c.crcAlgorithm = .reference) (crc : Half) : crcFold c crc (crcBytes crc) = 0x0000 := by
  rw [crcBytes, crcFold_cons, crcFold_cons, crcFold_nil, crcStep_reference hc, crcStep_reference hc, crcStepReference_lowByte,
    crcStepReference_self]

/-- Settles O33: the fold over the sequence is the CRC, and its own bytes fold it to zero. -/
theorem referenceCrcResidueIsZero : Obligations.ReferenceCrcResidueIsZero := by
  intro c xs hc
  rw [crcFold_append]
  exact crcFold_crcBytes hc _

end Sys2Proof.Machine
end

section
/-! SUPPORT. The reference CRC tells a byte sequence from the same sequence with one byte changed (spec 40_crc.md R112), and the
obligation that a frame with one changed literal is not delivered (42_receive.md R174). -/

namespace Sys2Proof.Machine

/-! ### The reference CRC is injective, in the accumulator and in the byte -/

/-- The polynomial's top bit marks a round whose lowest bit was set. -/
theorem crcRound_getLsbD_top (crc : Half) : (crcRound crc).getLsbD 15 = crc.getLsbD 0 := by
  unfold crcRound
  cases h : crc.getLsbD 0 <;> simp

theorem crcRound_injective : Function.Injective crcRound := by
  intro x y h
  have hlow : x.getLsbD 0 = y.getLsbD 0 := by rw [← crcRound_getLsbD_top, h, crcRound_getLsbD_top]
  have hshift : x >>> 1 = y >>> 1 := by
    unfold crcRound at h
    rw [hlow] at h
    split at h
    · exact (BitVec.xor_left_inj _).1 h
    · exact h
  refine BitVec.eq_of_getLsbD_eq fun i _ => ?_
  cases i with
  | zero => exact hlow
  | succ i => simpa [Nat.add_comm 1] using congrArg (BitVec.getLsbD · i) hshift

theorem crcStepReference_injective_crc (b : Byte) : Function.Injective (crcStepReference · b) := fun _ _ h =>
  (BitVec.xor_left_inj _).1 (crcRound_injective.iterate 8 h)

theorem crcStepReference_injective_byte (crc : Half) : Function.Injective (crcStepReference crc) := fun b b' h => by
  have hwide := (BitVec.xor_right_inj _).1 (crcRound_injective.iterate 8 h)
  simpa using congrArg (BitVec.setWidth 8) hwide

section
variable {c : Config} (hc : c.crcAlgorithm = .reference)
include hc

theorem crcFold_injective_crc (bytes : List Byte) : Function.Injective (crcFold c · bytes) := by
  induction bytes with
  | nil => exact fun _ _ h => h
  | cons b rest ih =>
    intro x y h
    have hstep := ih h
    rw [crcStep_reference hc, crcStep_reference hc] at hstep
    exact crcStepReference_injective_crc b hstep

/-- R112: the byte at one place of a sequence is fixed by the rest and the CRC. -/
theorem crcFold_injective_at (crc : Half) (before after : List Byte) :
    Function.Injective fun b => crcFold c crc (before ++ b :: after) := by
  intro b b' h
  simp only [crcFold_append, crcFold_cons] at h
  have hstep := crcFold_injective_crc hc after h
  rw [crcStep_reference hc, crcStep_reference hc] at hstep
  exact crcStepReference_injective_byte _ hstep

end

/-! ### The change on the wire -/

/-- A literal of the frame stands on the wire by itself: what comes before it and after it does not depend on it (R81). -/
theorem escapeAfter_append_literal (before after : List Byte) (r : Nat) :
    ∃ sent, ∀ b, b ≠ 0x00 → escapeAfter r (before ++ b :: after) = sent ++ b :: escapeAfter 0 after := by
  induction before generalizing r with
  | nil => exact ⟨runPairs r, fun b hb => by rw [List.nil_append, escapeAfter, if_neg hb]⟩
  | cons a before ih =>
    by_cases ha : a = 0x00
    · obtain ⟨sent, h⟩ := ih (r + 1)
      exact ⟨sent, fun b hb => by rw [List.cons_append, escapeAfter, if_pos ha, h b hb]⟩
    · obtain ⟨sent, h⟩ := ih 0
      refine ⟨runPairs r ++ a :: sent, fun b hb => ?_⟩
      rw [List.cons_append, escapeAfter, if_neg ha, h b hb, List.append_assoc, List.cons_append]

/-! ### The closing break -/

theorem lowByte_crcOfBytes (low high : Byte) : lowByte (crcOfBytes low high) = low := by
  refine BitVec.eq_of_getLsbD_eq fun i hi => ?_
  simp [lowByte, crcOfBytes, hi, show i < 16 by omega]

theorem highByte_crcOfBytes (low high : Byte) : highByte (crcOfBytes low high) = high := by
  refine BitVec.eq_of_getLsbD_eq fun i hi => ?_
  simp [highByte, crcOfBytes, hi, show 8 + i < 16 by omega]

theorem crcBytes_crcOfBytes (low high : Byte) : crcBytes (crcOfBytes low high) = [low, high] := by
  rw [crcBytes, lowByte_crcOfBytes, highByte_crcOfBytes]

/-- A break between two tokens of a frame completes it (R163, R172). -/
theorem feedAll_breakBytes {s : State} (h : s.BetweenTokens) :
    feedAll breakBytes s = .next { rxComplete { s with delim := 2 } with rxBusy := false } := by
  have hmark : (rxComplete { s with delim := 2 }).fault = none := by
    rw [rxComplete_eq]
    exact h.unmarked
  rw [breakBytes, feedAll_cons (execRxFeed_delimiter_first h.busy h.delim) h.unmarked,
    feedAll_cons (execRxFeed_delimiter_completes (s := { s with delim := 1 }) h.busy (show (1 : Fin 3) ≠ 0 by decide)) hmark]
  rfl

theorem feedAll_breakBytes_mismatch {s : State} (h : s.BetweenTokens) (ho : s.rxOvf = false) (hl : 3 ≤ s.rxLen)
    (hcrc : receivedCrc s ≠ s.rxCrc) :
    ∃ t, feedAll breakBytes s = .next t ∧ t.evOut = s.evOut ++ [.error .crc (receivedCrc s)] := by
  refine ⟨_, feedAll_breakBytes h, ?_⟩
  rw [rxComplete_eq, rxOutcome_mismatch (s := { s with delim := 2 }) ho hl hcrc]
  rfl

/-- An assembled frame whose bytes, with the marker, do not fold to zero fails the CRC check: its last two bytes are not the CRC of
the others (R111, R174). -/
theorem receivedCrc_ne_of_residue {s : State} (hc : s.cfg.crcAlgorithm = .reference) (hcrc : s.CrcTwoBehind) (hl : 2 ≤ s.rxLen)
    (h : crcFold s.cfg s.cfg.crcInit (markerOf s.rxNode :: Memory.bytes s.rxBuf 0 s.rxLen) ≠ 0x0000) :
    receivedCrc s ≠ s.rxCrc := by
  intro heq
  obtain ⟨n, hn⟩ := Nat.exists_eq_add_of_le' hl
  have hlast : [Memory.read s.rxBuf n, Memory.read s.rxBuf (n + 1)] = crcBytes s.rxCrc := by
    rw [← heq, receivedCrc, crcBytes_crcOfBytes, hn]
    rfl
  have hbytes : Memory.bytes s.rxBuf 0 s.rxLen = Memory.bytes s.rxBuf 0 (s.rxLen - 2) ++ crcBytes s.rxCrc := by
    rw [← hlast, hn, Nat.add_sub_cancel, Memory.bytes_snoc, Memory.bytes_snoc, Nat.zero_add, Nat.zero_add, List.append_assoc]
    rfl
  refine h ?_
  rw [hbytes, ← List.cons_append, crcFold_append, ← hcrc]
  exact crcFold_crcBytes hc _

theorem openAssembly_crcTwoBehind (node : Byte) (s : State) : (openAssembly node s).CrcTwoBehind := rfl

/-- A frame that fits and does not fold to zero, fed with its closing break in Addressing, is reported with a CRC error. -/
theorem feedAll_frame_crc_error {s : State} {node : Byte} {bytes : List Byte} (hinv : s.Inv) (hf : s.fault = none)
    (hc : s.cfg.crcAlgorithm = .reference) (hs : decoderState s = .addressing) (hn : node.toNat < s.cfg.maxNodes)
    (hl : 3 ≤ bytes.length) (hfit : bytes.length ≤ s.cfg.rxCapacity)
    (h : crcFold s.cfg s.cfg.crcInit (markerOf node :: bytes) ≠ 0x0000) :
    ∃ t info, feedAll (escape (markerOf node :: bytes) ++ breakBytes) s = .next t ∧
      t.evOut = s.evOut ++ [.error .crc info] := by
  obtain ⟨-, -, hrx⟩ := State.inv_iff.1 hinv
  have htokens := (openAssembly_betweenTokens node hf).append bytes
  have hcrc := (openAssembly_crcTwoBehind node s).appendAll bytes
  obtain ⟨buf, e, hbytes⟩ := rxAppendAll_empty (s := openAssembly node s) rfl hfit hrx.buf_wf
  rw [feedAll_escape_frame hinv hn hs hf]
  rw [e] at htokens hcrc ⊢
  obtain ⟨t, ht, hev⟩ := feedAll_breakBytes_mismatch htokens rfl hl <|
    receivedCrc_ne_of_residue hc hcrc (Nat.le_of_succ_le hl) (by simp only [hbytes]; exact h)
  exact ⟨t, _, ht, hev⟩

/-- Settles O34: the sent frame folds to zero (R111), so with one byte changed it does not, and the decoder reports it. -/
theorem changedLiteralIsCaught : Obligations.ChangedLiteralIsCaught := by
  intro s node body before after b b' hinv hf hc hs hn hbody hfit hframe hb hb' hne
  obtain ⟨sent, hsent⟩ := escapeAfter_append_literal (markerOf node :: before) after 0
  refine ⟨⟨sent, _, hsent b hb, hsent b' hb'⟩, ?_⟩
  have hlen : (before ++ b' :: after).length = body.length + 2 := by
    simpa [crcBytes] using (congrArg List.length hframe).symm
  have hzero : crcFold s.cfg s.cfg.crcInit (markerOf node :: (before ++ b :: after)) = 0x0000 := by
    rw [← hframe, ← List.cons_append, crcFold_append]
    exact crcFold_crcBytes hc _
  refine feedAll_frame_crc_error hinv hf hc hs hn (by omega) (by omega) fun hzero' => hne ?_
  exact crcFold_injective_at hc s.cfg.crcInit (markerOf node :: before) after (hzero'.trans hzero.symm)

end Sys2Proof.Machine
end

section
/-! SUPPORT. The obligations about what each transmit command leaves (spec 41_transmit.md R125, R130 to R150): the whole next state of
a begin, a write and an end, and that an oversized write is only reported. -/

namespace Sys2Proof.Machine

/-! ### TX_BEGIN and TX_RESYNC (R130, R131, R150) -/

/-- The escaper over frame bytes with no run pending, where the bytes sent are known: they are all escaped bytes but the pairs of the
run left pending (R121). -/
theorem escPutAll_of_sent {frame sent : List Byte} {s : State} (h : s.escRun = 0)
    (hsent : escapeAfter 0 frame = sent ++ runPairs (openRun 0 frame % 255)) :
    escPutAll frame s =
      { s with
        txCrc := crcFold s.cfg s.txCrc frame
        escRun := BitVec.ofNat 8 (openRun 0 frame % 255)
        txOut := s.txOut ++ sent.map .byte } := by
  have hrun : s.escRun.toNat = 0 := congrArg BitVec.toNat h
  obtain ⟨sent', hsent', e⟩ := escPutAll_eq frame (hrun ▸ Nat.zero_le 254)
  rw [hrun] at hsent' e
  cases List.append_cancel_right (hsent'.trans hsent)
  exact e

/-- After the marker, which is no delimiter, the delimiters among sequence and header that stand last are the run. -/
theorem openRun_header {m q h : Byte} (hm : m ≠ 0#8) :
    openRun 0 [m, q, h] = if h ≠ 0 then 0 else if q = 0 then 2 else 1 := by
  by_cases hq : q = 0#8 <;> by_cases hh : h = 0#8 <;> simp [openRun, hm, hq, hh]

/-- R131: what TX_BEGIN sends of its frame bytes, and the pairs of the run it leaves. -/
theorem escapeAfter_header {m q h : Byte} (hm : m ≠ 0#8) :
    escapeAfter 0 [m, q, h] =
      ([m] ++ (if q = 0 then [] else [q]) ++ (if h = 0 then [] else if q = 0 then [0x00, 0x01, h] else [h])) ++
        runPairs (openRun 0 [m, q, h] % 255) := by
  have hone : runPairs 1 = [0x00, 0x01] := by decide
  rw [openRun_header hm]
  by_cases hq : q = 0#8 <;> by_cases hh : h = 0#8 <;> simp [escapeAfter, hm, hq, hh, hone]

/-- Settles O23: the frame is opened, and its three bytes go through the escaper with no run pending. -/
theorem txBeginOpensFrame : Obligations.TxBeginOpensFrame := by
  intro s node hdr hl
  refine ⟨fun hn => ?_, fun hn => exec_txBegin_bad hdr hn⟩
  have hm : markerOf node ≠ 0x00 := markerOf_ne_zero hl hn
  have hrun : BitVec.ofNat 8 (openRun 0 [markerOf node, tableGet s.txSeq node, hdr] % 255) =
      if hdr ≠ 0 then 0 else if tableGet s.txSeq node = 0 then 2 else 1 := by
    rw [openRun_header hm]
    split_ifs <;> rfl
  have hbreak : (if breakDue s then [.byte 0x00, .byte 0x00] else []) =
      (if s.txActive = true ∨ s.needBreak = true then [0x00, 0x00] else []).map TxItem.byte := by
    simp only [breakDue, Bool.or_eq_true]
    split_ifs <;> rfl
  rw [exec_txBegin_valid hdr hn, openFrame_eq, escPutAll_of_sent rfl (escapeAfter_header hm), hrun, hbreak]
  simp only [markerOf, List.map_append, List.append_assoc, List.cons_append]

/-- R130: where a break is due, what TX_BEGIN to a valid node appends begins with `TxStart` and the break. -/
theorem exec_txBegin_break {s : State} {node : Byte} (hdr : Byte) (hn : node.toNat < s.cfg.maxNodes) (hb : breakDue s = true) :
    ∃ u, exec (.txBegin node hdr) s = .next u ∧ s.txOut ++ [.start, .byte 0x00, .byte 0x00] <+: u.txOut := by
  obtain ⟨_, _, out, e⟩ := escPutAll_frame [markerOf node, tableGet s.txSeq node, hdr] (openFrame node s)
  refine ⟨_, exec_txBegin_valid hdr hn, out.map .byte, ?_⟩
  rw [e, openFrame_eq, if_pos hb]

/-- Settles O29: TX_RESYNC makes a break due, and so does an open frame. -/
theorem txResyncAsksForBreak : Obligations.TxResyncAsksForBreak := by
  refine ⟨by decide, fun s => rfl, fun s node hdr hn => ⟨?_, fun ha => ?_⟩⟩
  · obtain ⟨u, e, hout⟩ := exec_txBegin_break (s := { s with needBreak := true }) hdr hn (Bool.or_true _)
    exact ⟨_, u, rfl, e, hout⟩
  · exact exec_txBegin_break hdr hn (by rw [breakDue, ha, Bool.true_or])

/-! ### TX_WRITE (R125, R138 to R140) -/

/-- Settles O25: one branch of TX_WRITE each; the escaper over the list is what the first sends. -/
theorem txWriteSendsEscapedBytes : Obligations.TxWriteSendsEscapedBytes := by
  intro s data hrun
  refine ⟨fun ha hl => ?_, exec_txWrite_oversized, exec_txWrite_inactive data⟩
  obtain ⟨sent, hsent, e⟩ := escPutAll_eq data hrun
  exact ⟨sent, hsent, by rw [exec_txWrite_sends ha hl, e]⟩

/-- Settles O27: the first write leaves the frame open under the same configuration, and the escaper takes one list after the other. -/
theorem splitWriteIsOneWrite : Obligations.SplitWriteIsOneWrite := by
  intro s xs ys ha hl
  have hlen := List.length_append (as := xs) (bs := ys)
  refine ⟨_, _, exec_txWrite_sends ha (by omega), exec_txWrite_sends ((escPutAll_txActive ..).trans ha) ?_, ?_⟩
  · rw [escPutAll_cfg]
    omega
  · rw [exec_txWrite_sends ha hl, escPutAll_append]

theorem execAll_cons_inv {i : Instr} {rest : List Instr} {s v : State} (h : execAll (i :: rest) s = .next v) :
    ∃ t, exec i s = .next t ∧ t.fault = none ∧ execAll rest t = .next v := by
  rw [execAll] at h
  split at h
  next t e =>
    split at h
    next hf => exact ⟨t, e, hf, h⟩
    next => cases h
  next => cases h
  next => cases h

/-- R45 along a run: transmit commands do to the transmit path's part of a state what they do to it over any other state. -/
theorem execAll_transmitOnto {later : List Instr} (hl : ∀ i ∈ later, isTransmit i = true) {s v : State}
    (h : execAll later s = .next v) (r : State) : ∃ r', execAll later (s.transmitOnto r) = .next (v.transmitOnto r') := by
  induction later generalizing s r with
  | nil =>
    cases h
    exact ⟨r, rfl⟩
  | cons i rest ih =>
    obtain ⟨hi, hrest⟩ := List.forall_mem_cons.1 hl
    obtain ⟨t, e, hf, h'⟩ := execAll_cons_inv h
    obtain ⟨events, -, hdet⟩ := exec_transmitDetermines hi e
    rw [execAll_cons (hdet r) hf]
    exact ih hrest h' (r.withEvents events)

theorem escPut_txCrc (b : Byte) (s : State) : (escPut b s).txCrc = crcStep s.cfg s.txCrc b := by
  unfold escPut escDelimiter
  dsimp only
  split
  · split <;> rfl
  · obtain ⟨_, _, e⟩ := escFlush_frame { s with txCrc := crcStep s.cfg s.txCrc b }
    rw [e, emit_txCrc]

/-- R121: the CRC takes the unescaped bytes, whatever the run pending is. -/
theorem escPutAll_txCrc_eq_crcFold (frame : List Byte) (s : State) :
    (escPutAll frame s).txCrc = crcFold s.cfg s.txCrc frame := by
  induction frame generalizing s with
  | nil => rfl
  | cons b rest ih => rw [escPutAll, ih, escPut_txCrc, show (escPut b s).cfg = s.cfg from escPutAll_cfg [b] s, crcFold_cons]

/-- Settles O26: the report changes the events only, which no transmit command reads; a write at the bound is sent. -/
theorem oversizedWriteIsOnlyReported : Obligations.OversizedWriteIsOnlyReported := by
  refine ⟨fun s data ha hl => ⟨_, exec_txWrite_oversized ha hl, rfl, fun later v hlater h => ?_⟩, fun s data ha hl => ?_⟩
  · have htransmit : ∀ i ∈ later, isTransmit i = true := by
      intro i hi
      obtain rfl | ⟨more, rfl⟩ := hlater i hi <;> rfl
    obtain ⟨r', e⟩ := execAll_transmitOnto htransmit h (report .txOversize (infoOfCount data.length) s)
    exact ⟨_, e, rfl⟩
  · exact ⟨_, exec_txWrite_sends ha hl.le, escPutAll_evOut data s, escPutAll_txCrc_eq_crcFold data s⟩

/-! ### TX_END (R145) -/

/-- Settles O28: TX_END closes the frame with the CRC of the bytes written so far. -/
theorem txEndClosesFrame : Obligations.TxEndClosesFrame := by
  refine ⟨by decide, fun s hrun ha => ?_, fun s ha => exec_txEnd_inactive ha⟩
  rw [exec_txEnd_active ha, List.append_assoc]
  exact congrArg _ (closeFrame_escPutAll [] hrun)

end Sys2Proof.Machine
end

section
/-! SUPPORT. The length of a frame on the wire (spec 41_transmit.md R156). -/

namespace Sys2Proof.Machine

/-- A run takes one pair for each chunk of at most 255 delimiters. -/
theorem length_runPairs (r : Nat) : (runPairs r).length = 2 * ((r + 254) / 255) := by
  rw [runPairs, List.length_append, List.length_flatten, List.map_replicate, List.sum_replicate, smul_eq_mul]
  split <;> simp only [List.length_cons, List.length_nil] <;> omega

/-- The chunks of one run, where no run counts as none. -/
theorem chunkCount_run_append (r : Nat) (runs : List Nat) :
    chunkCount ((if r = 0 then [] else [r]) ++ runs) = (r + 254) / 255 + chunkCount runs := by
  split
  next h => simp [h]
  next => rfl

theorem literalCount_cons (b : Byte) (frame : List Byte) :
    literalCount (b :: frame) = (if b = 0x00 then 0 else 1) + literalCount frame := by
  by_cases hb : b = 0#8 <;> simp [literalCount, hb, Nat.add_comm]

/-- Escaped bytes are the literals, and a pair for each chunk of the maximal runs. -/
theorem length_escapeAfter (r : Nat) (frame : List Byte) :
    (escapeAfter r frame).length = literalCount frame + 2 * chunkCount (runLengths r frame) := by
  induction frame generalizing r with
  | nil =>
    rw [escapeAfter, runLengths, length_runPairs, ← List.append_nil (if r = 0 then [] else [r]), chunkCount_run_append]
    simp [literalCount, chunkCount]
  | cons b rest ih =>
    rw [escapeAfter, runLengths, literalCount_cons]
    split
    · rw [ih, Nat.zero_add]
    · rw [List.length_append, List.length_cons, ih, length_runPairs, chunkCount_run_append]
      omega

theorem wireBytes_append (xs ys : List TxItem) : wireBytes (xs ++ ys) = wireBytes xs ++ wireBytes ys := by
  induction xs with
  | nil => rfl
  | cons item rest ih => cases item <;> simp [wireBytes, ih]

theorem wireBytes_map_byte (bytes : List Byte) : wireBytes (bytes.map .byte) = bytes := by
  induction bytes with
  | nil => rfl
  | cons b rest ih => simp [wireBytes, ih]

theorem length_wireFrame (c : Config) (opening : Bool) (node seq hdr : Byte) (payload : List Byte) :
    (wireFrame c opening node seq hdr payload).length =
      2 * (if opening then 1 else 0) + literalCount (frameBytes c node seq hdr payload) +
        2 * chunkCount (runLengths 0 (frameBytes c node seq hdr payload)) + 2 := by
  rw [wireFrame, List.length_append, List.length_append, escape, length_escapeAfter]
  cases opening <;> simp [breakBytes, Nat.add_assoc]

/-- Settles O32: the run's output is the frame's wire bytes between `TxStart` and `TxEnd` (O30), and those are counted. -/
theorem frameWireLength : Obligations.FrameWireLength := by
  intro s node hdr writes hl hf hn hw
  obtain ⟨t, e, hout, -⟩ := frameOnTheWire s node hdr writes hl hf hn hw
  refine ⟨t, e, ?_⟩
  rw [hout, wireBytes_append, List.length_append, wireBytes, wireBytes_append, wireBytes_map_byte, List.length_append,
    length_wireFrame]
  simp only [Bool.or_eq_true, wireBytes, List.length_nil, Nat.add_zero]

end Sys2Proof.Machine
end

section
/-! SUPPORT. The obligations about RX_FEED outside a frame (spec 42_receive.md R162, R164, R165), and about what no RX_FEED writes
(R168). -/

namespace Sys2Proof.Machine

/-! ### Outside a frame -/

theorem exec_rxFeed_delimiter_outside {s : State} {d : Fin 3} (hb : s.rxBusy = false) (hd : s.delim = d) :
    exec (.rxFeed 0x00) s = .next { s with delim := delimUp d } := by
  rw [exec_rxFeed, execRxFeed_delimiter_outside hb, hd]

/-- Settles O35: the counter goes up by one, saturating. -/
theorem delimiterOutsideFrame : Obligations.DelimiterOutsideFrame :=
  fun _ hb => ⟨exec_rxFeed_delimiter_outside hb, exec_rxFeed_delimiter_outside hb, exec_rxFeed_delimiter_outside hb⟩

/-- Settles O38: RX_FEED takes its Idle branch. -/
theorem idleIgnoresBytes : Obligations.IdleIgnoresBytes := by
  intro s c hs hc
  obtain ⟨hb, hd⟩ := decoderState_idle.1 hs
  exact execRxFeed_idle hc hb hd

theorem toNat_nodeOf (marker : Byte) : (nodeOf marker).toNat = 255 - marker.toNat := by
  rw [nodeOf, BitVec.toNat_sub_of_le (BitVec.le_def.2 (Nat.le_of_lt_succ marker.isLt))]
  rfl

theorem nodeOf_eq_ofNat (marker : Byte) : nodeOf marker = BitVec.ofNat 8 (255 - marker.toNat) := by
  rw [← toNat_nodeOf, BitVec.ofNat_toNat, BitVec.setWidth_eq]

theorem rxMarker_valid {c : Byte} {s : State} (h : 255 - c.toNat < s.cfg.maxNodes) :
    rxMarker c s =
      { s with
        rxNode := nodeOf c
        rxLen := 0
        rxOvf := false
        rxCrc := crcStep s.cfg s.cfg.crcInit c
        rxBusy := true } := by
  rw [rxMarker, validNode, toNat_nodeOf, if_pos (decide_eq_true h)]

theorem rxMarker_invalid {c : Byte} {s : State} (h : s.cfg.maxNodes ≤ 255 - c.toNat) :
    rxMarker c s = report .addr (infoOfByte c) s := by
  rw [rxMarker, validNode, toNat_nodeOf, if_neg (by simpa using h)]

theorem infoOfByte_eq_ofNat (b : Byte) : infoOfByte b = BitVec.ofNat 16 b.toNat := by
  rw [infoOfByte, BitVec.ofNat_toNat]

/-- Settles O39: the marker's node is valid or it is not; after an invalid one the decoder is Idle (`idleIgnoresBytes`) with the
counter cleared already. -/
theorem markerInAddressing : Obligations.MarkerInAddressing := by
  intro s c hs hc
  obtain ⟨hb, hd⟩ := decoderState_addressing.1 hs
  have hfeed := execRxFeed_marker hc hb hd
  refine ⟨fun hvalid => ?_, fun hinvalid => ?_⟩
  · rw [exec_rxFeed, hfeed, rxMarker_valid hvalid, nodeOf_eq_ofNat]
    rfl
  · rw [rxMarker_invalid hinvalid, infoOfByte_eq_ofNat] at hfeed
    have hidle : decoderState { report .addr (BitVec.ofNat 16 c.toNat) s with delim := 0 } = .idle :=
      decoderState_idle.2 ⟨hb, show (0 : Fin 3) ≠ 2 by decide⟩
    exact ⟨_, hfeed, rfl, hidle, fun noise hnoise => idleIgnoresBytes _ noise hidle hnoise⟩

/-! ### What no RX_FEED writes -/

theorem execRxFeed_nonDelimiter_delim {c : Byte} (hc : c ≠ 0x00) {s t : State} (e : execRxFeed c s = .next t) :
    t.delim = 0 := by
  rw [execRxFeed, if_neg hc] at e
  cases e
  rfl

/-- Settles O42: the frame of RX_FEED, and a byte that is no delimiter clears the counter. -/
theorem rxFeedNeverFaults : Obligations.RxFeedNeverFaults := by
  intro s c
  obtain ⟨_, _, _, _, _, _, _, _, _, _, _, _, e⟩ := execRxFeed_frame c s
  exact ⟨_, e, rfl, rfl, rfl, rfl, fun hc => execRxFeed_nonDelimiter_delim hc e⟩

end Sys2Proof.Machine
end

section
/-! SUPPORT. The obligations about a byte that is no delimiter inside a frame (spec 42_receive.md R166, R167, R171). -/

namespace Sys2Proof.Machine

theorem rxAppend_room {s : State} (b : Byte) (h : s.rxLen < s.cfg.rxCapacity) :
    rxAppend b s =
      { s with
        rxBuf := Memory.write s.rxBuf s.rxLen b
        rxLen := s.rxLen + 1
        rxCrc := if 2 ≤ s.rxLen then crcStep s.cfg s.rxCrc (Memory.read s.rxBuf (s.rxLen - 2)) else s.rxCrc } := by
  by_cases htwo : 2 ≤ s.rxLen
  · have hread := Memory.read_write_ne s.rxBuf b (show s.rxLen - 2 ≠ s.rxLen by omega)
    simp only [rxAppend, if_pos h, if_pos htwo, hread]
  · simp only [rxAppend, if_pos h, if_neg htwo]

theorem rxAppend_full {s : State} (b : Byte) (h : s.cfg.rxCapacity ≤ s.rxLen) : rxAppend b s = { s with rxOvf := true } := by
  rw [rxAppend, if_neg (Nat.not_lt.2 h)]

/-- R167: the counter is clear already, so a literal is its append and no more. -/
theorem exec_rxFeed_literal {s : State} {c : Byte} (hc : c ≠ 0x00) (hb : s.rxBusy = true) (hd : s.delim = 0) :
    exec (.rxFeed c) s = .next (rxAppend c s) := by
  have hself : { s with delim := 0 } = s := by rw [← hd]
  rw [exec_rxFeed, execRxFeed_literal hc hb (by rw [hd]; decide), ← rxAppendAll_withDelim, hself]
  rfl

/-- Settles O41: a literal's append finds room or it does not. -/
theorem literalIsAppended : Obligations.LiteralIsAppended := by
  intro s c hinv hb hd hc
  obtain ⟨-, -, hrx⟩ := State.inv_iff.1 hinv
  have hfeed := exec_rxFeed_literal hc hb hd
  refine ⟨fun hroom => ?_, fun hfull => ?_⟩
  · rw [rxAppend_room c hroom] at hfeed
    exact ⟨_, hfeed, rfl, fun k => Memory.read_write hrx.buf_wf s.rxLen k c⟩
  · rw [hfeed, rxAppend_full c hfull.ge]

/-- Settles O40: the append law over `c` zero bytes. -/
theorem escapePairAppendsZeros : Obligations.EscapePairAppendsZeros := by
  intro s c hinv hb hd hc
  obtain ⟨-, -, hrx⟩ := State.inv_iff.1 hinv
  obtain ⟨buf, e, -, -, hread⟩ := rxAppendAll_eq (List.replicate c.toNat 0x00) hrx.len_le hrx.buf_wf
  have hfeed := execRxFeed_chunk hc hb hd
  rw [List.length_replicate] at e hread
  rw [e] at hfeed
  refine ⟨_, hfeed, rfl, fun k => (hread k).trans ?_⟩
  by_cases hk : s.rxLen ≤ k ∧ k < min s.cfg.rxCapacity (s.rxLen + c.toNat)
  · rw [if_pos hk, if_pos hk, List.getD_replicate _ (by omega)]
  · rw [if_neg hk, if_neg hk]

end Sys2Proof.Machine
end

section
/-! SUPPORT. The obligations about a delimiter inside a frame (spec 42_receive.md R163, R172 to R180, 60_exceptions.md R235). -/

namespace Sys2Proof.Machine

/-! ### The completing delimiter -/

theorem rxOutcome_withBusy (s : State) (busy : Bool) :
    rxOutcome { s with rxBusy := busy } = { rxOutcome s with rxBusy := busy } := by
  by_cases ho : s.rxOvf = true
  · rw [rxOutcome_overflow ho, rxOutcome_overflow (by exact ho)]
    rfl
  have ho := Bool.eq_false_of_not_eq_true ho
  rcases Nat.lt_or_ge s.rxLen 3 with hl | hl
  · rw [rxOutcome_short ho hl, rxOutcome_short (by exact ho) (by exact hl)]
  by_cases hc : receivedCrc s = s.rxCrc
  · rw [rxOutcome_accepted ho hl hc, rxOutcome_accepted (by exact ho) (by exact hl) (by exact hc)]
    rfl
  · rw [rxOutcome_mismatch ho hl hc, rxOutcome_mismatch (by exact ho) (by exact hl) (by exact hc)]
    rfl

/-- R172: whether the decoder is busy is not read by a completion, nor written. -/
theorem rxComplete_withBusy (s : State) (busy : Bool) :
    rxComplete { s with rxBusy := busy } = { rxComplete s with rxBusy := busy } := by
  rw [rxComplete, rxOutcome_withBusy]
  rfl

theorem exec_rxFeed_delimiter_completes {s : State} (hb : s.rxBusy = true) (hd : s.delim ≠ 0) :
    exec (.rxFeed 0x00) s = .next (rxComplete { s with delim := 2, rxBusy := false }) := by
  rw [exec_rxFeed, execRxFeed_delimiter_completes hb hd]
  exact congrArg _ (rxComplete_withBusy { s with delim := 2 } false).symm

/-- R53, R172: a CRC is its two wire bytes, the second one high. -/
theorem crcOfBytes_eq_append (low high : Byte) : crcOfBytes low high = high ++ low := by
  refine BitVec.eq_of_getLsbD_eq fun i hi => ?_
  rw [BitVec.getLsbD_append]
  by_cases h : i < 8
  · simp [crcOfBytes, h, hi]
  · simp [crcOfBytes, h, hi, BitVec.getLsbD_of_ge low i (Nat.not_lt.1 h)]

theorem receivedCrc_eq_append (s : State) :
    receivedCrc s = Memory.read s.rxBuf (s.rxLen - 1) ++ Memory.read s.rxBuf (s.rxLen - 2) :=
  crcOfBytes_eq_append _ _

/-- Settles O36: the first delimiter waits; the second completes the frame, whose outcome is one of the four of R235, in their
order. -/
theorem delimiterInsideFrame : Obligations.DelimiterInsideFrame := by
  intro s hinv hb
  obtain ⟨-, -, hrx⟩ := State.inv_iff.1 hinv
  refine ⟨execRxFeed_delimiter_first hb, fun hd => ⟨_, exec_rxFeed_delimiter_completes hb (by rw [hd]; decide), ?_⟩⟩
  rw [rxComplete_eq, ← receivedCrc_eq_append]
  refine ⟨rfl, rfl, ?_⟩
  by_cases ho : s.rxOvf = true
  · rw [if_pos ho, rxOutcome_overflow (by exact ho), ← hrx.ovf_full ho]
    exact ⟨rfl, rfl, rfl, rfl⟩
  rw [if_neg ho]
  have ho := Bool.eq_false_of_not_eq_true ho
  by_cases hl : s.rxLen < 3
  · rw [if_pos hl, rxOutcome_short (by exact ho) (by exact hl)]
    exact ⟨rfl, rfl, rfl, rfl⟩
  rw [if_neg hl]
  by_cases hc : receivedCrc s = s.rxCrc
  · rw [if_neg (not_not.2 hc), rxOutcome_accepted (by exact ho) (by exact Nat.not_lt.1 hl) (by exact hc)]
    rfl
  · rw [if_pos hc, rxOutcome_mismatch (by exact ho) (by exact Nat.not_lt.1 hl) (by exact hc)]
    exact ⟨rfl, rfl, rfl, rfl⟩

/-! ### Loss accounting (R176) -/

theorem toNat_skipped (last q : Byte) :
    ((skipped last q).toNat : Int) = ((q.toNat : Int) - ((last.toNat : Int) + 1) % 256) % 256 := by
  have hq := q.isLt
  have hlast := last.isLt
  rw [skipped, BitVec.toNat_sub, BitVec.toNat_add, show (1 : Byte).toNat = 1 from rfl]
  omega

theorem skipped_next (last : Byte) : skipped last (last + 1) = 0 := BitVec.sub_self _

theorem skipped_repeated (last : Byte) : (skipped last last).toNat = 255 := by
  rw [skipped]
  bv_omega

theorem skipped_behind (last : Byte) : (skipped last (last - 1)).toNat = 254 := by
  rw [skipped]
  bv_omega

/-- Settles O37: acceptance writes the node's own entry of each table, and a sound state has one for the node. -/
theorem acceptedFrameIsCounted : Obligations.AcceptedFrameIsCounted := by
  intro s hinv hb hd ho hl hcrc
  obtain ⟨-, -, hrx⟩ := State.inv_iff.1 hinv
  have hnode := hrx.node_valid hb
  have hfeed := exec_rxFeed_delimiter_completes hb (by rw [hd]; decide)
  rw [rxComplete_eq, rxOutcome_accepted (by exact ho) (by exact hl) (by exact (receivedCrc_eq_append s).trans hcrc)] at hfeed
  refine ⟨_, (skipped (tableGet s.lastSeq s.rxNode) (Memory.read s.rxBuf 0)).toNat, hfeed, toNat_skipped _ _, ?_, ?_,
    tableGet_tableSet_same _ (hrx.last_length ▸ hnode),
    fun other hne => ⟨tableGet_tableSet_ne _ _ hne, tableGet_tableSet_ne _ _ hne, tableGet_tableSet_ne _ _ hne⟩,
    rfl, fun hq => ?_, fun hq => ?_, fun hq => ?_⟩
  · refine (congrArg BitVec.toNat (tableGet_tableSet_same _ (hrx.good_length ▸ hnode))).trans ?_
    exact BitVec.toNat_add _ _
  · refine (congrArg (fun v : Half => (v.toNat : Int)) (tableGet_tableSet_same _ (hrx.lost_length ▸ hnode))).trans ?_
    dsimp only
    rw [BitVec.toNat_add, BitVec.toNat_setWidth_of_le (by decide)]
    rfl
  · rw [hq, skipped_next]
    rfl
  · rw [hq, skipped_repeated]
    rfl
  · rw [hq, skipped_behind]
    rfl

/-! ### Events and resynchronisation -/

/-- R235: a completion appends one event or none, and none to a frame that is short. -/
theorem rxOutcome_evOut_cases (s : State) :
    (rxOutcome s).evOut = s.evOut ∨
    (s.rxOvf = true ∨ 3 ≤ s.rxLen) ∧
      ∃ e, (rxOutcome s).evOut = s.evOut ++ [e] ∧
        ((∃ info, e = .error .overflow info) ∨ (∃ info, e = .error .crc info) ∨ ∃ node payload, e = .frame node payload) := by
  by_cases ho : s.rxOvf = true
  · rw [rxOutcome_overflow ho]
    exact .inr ⟨.inl ho, _, rfl, .inl ⟨_, rfl⟩⟩
  have ho := Bool.eq_false_of_not_eq_true ho
  rcases Nat.lt_or_ge s.rxLen 3 with hl | hl
  · rw [rxOutcome_short ho hl]
    exact .inl rfl
  by_cases hc : receivedCrc s = s.rxCrc
  · rw [rxOutcome_accepted ho hl hc]
    exact .inr ⟨.inr hl, _, rfl, .inr (.inr ⟨_, _, rfl⟩)⟩
  · rw [rxOutcome_mismatch ho hl hc]
    exact .inr ⟨.inr hl, _, rfl, .inr (.inl ⟨_, rfl⟩)⟩

/-- Settles O43, along RX_FEED's branches: only an invalid marker and a completion append an event. -/
theorem atMostOneEventPerByte : Obligations.AtMostOneEventPerByte := by
  intro s t c e
  by_cases hc : c = 0x00
  · subst hc
    cases hb : s.rxBusy with
    | false =>
      cases (exec_rxFeed_delimiter_outside hb rfl).symm.trans e
      exact .inl rfl
    | true =>
      by_cases hd : s.delim = 0
      · cases (execRxFeed_delimiter_first hb hd).symm.trans e
        exact .inl rfl
      · cases (exec_rxFeed_delimiter_completes hb hd).symm.trans e
        rw [rxComplete_eq]
        exact (rxOutcome_evOut_cases { s with delim := 2, rxBusy := false }).imp_right fun ⟨hlong, hevent⟩ =>
          .inr ⟨decoderState_receiving.2 hb, hd, rfl, rfl, hlong, hevent⟩
  · cases hb : s.rxBusy with
    | false =>
      by_cases hd : s.delim = 2
      · cases (execRxFeed_marker hc hb hd).symm.trans e
        rcases Nat.lt_or_ge (255 - c.toNat) s.cfg.maxNodes with hn | hn
        · rw [rxMarker_valid hn]
          exact .inl rfl
        · rw [rxMarker_invalid hn, infoOfByte_eq_ofNat]
          exact .inr (.inl ⟨decoderState_addressing.2 ⟨hb, hd⟩, hc, hn, rfl⟩)
      · cases (execRxFeed_idle hc hb hd).symm.trans e
        exact .inl rfl
    | true =>
      by_cases hd : s.delim = 1
      · cases (execRxFeed_chunk hc hb hd).symm.trans e
        exact .inl (rxAppendAll_evOut _ s)
      · cases (execRxFeed_literal hc hb hd).symm.trans e
        exact .inl (rxAppendAll_evOut _ s)

theorem delimUp_delimUp (d : Fin 3) : delimUp (delimUp d) = 2 := by
  revert d
  decide

/-- R179: what the completing delimiter leaves is Addressing. -/
theorem rxComplete_addressing (s : State) : decoderState (rxComplete { s with delim := 2, rxBusy := false }) = .addressing := by
  rw [rxComplete_eq]
  rfl

/-- A frame in progress is completed by the second delimiter, or, if a delimiter came before, by the first one, and then the second
finds the counter at its bound. -/
theorem exec_rxFeed_two_delimiters {s : State} (hb : s.rxBusy = true) :
    ∃ t, exec (.rxFeed 0x00) s = .next t ∧
      exec (.rxFeed 0x00) t = .next (rxComplete { s with delim := 2, rxBusy := false }) := by
  by_cases hd : s.delim = 0
  · exact ⟨_, execRxFeed_delimiter_first hb hd,
      exec_rxFeed_delimiter_completes (s := { s with delim := 1 }) hb (show (1 : Fin 3) ≠ 0 by decide)⟩
  · obtain ⟨hbusy, hdelim⟩ := decoderState_addressing.1 (rxComplete_addressing s)
    refine ⟨_, exec_rxFeed_delimiter_completes hb hd, (exec_rxFeed_delimiter_outside hbusy hdelim).trans ?_⟩
    rw [rxComplete_eq]
    rfl

/-- Settles O44: outside a frame two delimiters saturate the counter, and inside one they complete it once. -/
theorem twoDelimitersResynchronise : Obligations.TwoDelimitersResynchronise := by
  intro s
  cases hb : s.rxBusy with
  | false =>
    refine ⟨_, _, exec_rxFeed_delimiter_outside hb rfl, exec_rxFeed_delimiter_outside hb rfl, ?_⟩
    rw [delimUp_delimUp]
    exact ⟨decoderState_addressing.2 ⟨hb, rfl⟩, hb, rfl,
      fun hs => absurd (hb.symm.trans (decoderState_receiving.1 hs)) (by decide)⟩
  | true =>
    obtain ⟨t, hfirst, hsecond⟩ := exec_rxFeed_two_delimiters hb
    have hdone := rxComplete_addressing s
    obtain ⟨hbusy, hdelim⟩ := decoderState_addressing.1 hdone
    exact ⟨t, _, hfirst, hsecond, hdone, hbusy, hdelim, fun _ => ⟨rfl, rfl, rfl, rfl⟩⟩

end Sys2Proof.Machine
end

section
/-! SUPPORT. The obligations about a whole frame through the decoder (spec 42_receive.md R186, R187). -/

namespace Sys2Proof.Machine

/-! ### A frame longer than the buffer -/

/-- More bytes than the buffer holds, appended to an empty assembly, fill it and set the overflow flag (R171). -/
theorem rxAppendAll_overflow {s : State} {bytes : List Byte} (hempty : s.rxLen = 0) (hlong : s.cfg.rxCapacity < bytes.length)
    (hwf : Memory.wf s.rxBuf = true) :
    ∃ buf crc, rxAppendAll bytes s = { s with rxBuf := buf, rxLen := s.cfg.rxCapacity, rxOvf := true, rxCrc := crc } := by
  obtain ⟨buf, e, -⟩ := rxAppendAll_eq bytes (hempty ▸ Nat.zero_le _) hwf
  rw [hempty, Nat.zero_add, Nat.min_eq_left hlong.le, decide_eq_true hlong, Bool.or_true] at e
  exact ⟨buf, _, e⟩

/-- Settles O47: the bytes past the marker fill the buffer and set the overflow flag, which the closing break reports. -/
theorem overlongFrameReportsOnce : Obligations.OverlongFrameReportsOnce := by
  intro s node bytes hinv hf hs hn hlong
  obtain ⟨-, -, hrx⟩ := State.inv_iff.1 hinv
  have hfeed := feedAll_escape_frame hinv hn hs hf bytes []
  have htokens := (openAssembly_betweenTokens node hf).append bytes
  obtain ⟨buf, crc, e⟩ := rxAppendAll_overflow (s := openAssembly node s) rfl hlong hrx.buf_wf
  rw [List.append_nil] at hfeed
  rw [e] at hfeed htokens
  refine ⟨_, _, hfeed, rfl, feedAll_breakBytes htokens, ?_⟩
  rw [rxComplete_eq, rxOutcome_overflow rfl]
  exact ⟨rfl, rfl, rfl, rfl, rfl⟩

/-! ### The round trip -/

/-- R82, R162: an opening break brings a decoder outside a frame to Addressing; one that is there needs none. -/
theorem feedAll_opening {s : State} {opening : Bool} (hb : s.rxBusy = false) (hf : s.fault = none)
    (h : s.delim = 2 ∨ opening = true) (rest : List Byte) :
    feedAll ((if opening then breakBytes else []) ++ rest) s = feedAll rest { s with delim := 2 } := by
  cases opening with
  | false =>
    have hself : { s with delim := 2 } = s := by rw [← h.resolve_right (by decide)]
    rw [hself]
    rfl
  | true =>
    change feedAll (0x00 :: 0x00 :: rest) s = _
    rw [feedAll_cons (execRxFeed_delimiter_outside hb) hf,
      feedAll_cons (execRxFeed_delimiter_outside (s := { s with delim := delimUp s.delim }) hb) hf]
    exact congrArg (fun d => feedAll rest { s with delim := d }) (delimUp_delimUp s.delim)

theorem crcOfBytes_lowByte_highByte (crc : Half) : crcOfBytes (lowByte crc) (highByte crc) = crc := by
  rw [crcOfBytes_eq_append, highByte, lowByte, BitVec.extractLsb'_append_extractLsb'_eq_extractLsb' (by decide)]
  exact BitVec.extractLsb'_eq_self

theorem Memory.bytes_add (m : Memory) (start a b : Nat) :
    Memory.bytes m start (a + b) = Memory.bytes m start a ++ Memory.bytes m (start + a) b := by
  induction b with
  | zero => exact (List.append_nil _).symm
  | succ b ih => rw [← Nat.add_assoc, Memory.bytes_snoc, Memory.bytes_snoc, ih, List.append_assoc, Nat.add_assoc]

/-- A buffer that holds two lists in a row holds each of them. -/
theorem Memory.bytes_split {m : Memory} {start : Nat} {xs ys : List Byte}
    (h : Memory.bytes m start (xs ++ ys).length = xs ++ ys) :
    Memory.bytes m start xs.length = xs ∧ Memory.bytes m (start + xs.length) ys.length = ys := by
  rw [List.length_append, Memory.bytes_add] at h
  exact List.append_inj h (Memory.bytes_length _ _ _)

/-- The received CRC of an assembly that ends in the two bytes of `crc` (R172). -/
theorem receivedCrc_of_crcBytes {s : State} {n : Nat} {crc : Half} (hl : s.rxLen = n + 2)
    (h : Memory.bytes s.rxBuf n 2 = crcBytes crc) : receivedCrc s = crc := by
  obtain ⟨hlow, hrest⟩ := List.cons.inj h
  obtain ⟨hhigh, -⟩ := List.cons.inj hrest
  rw [receivedCrc, hl, Nat.add_sub_cancel, show n + 2 - 1 = n + 1 from rfl, hlow, hhigh, crcOfBytes_lowByte_highByte]

theorem feedAll_breakBytes_accepted {s : State} (h : s.BetweenTokens) (ho : s.rxOvf = false) (hl : 3 ≤ s.rxLen)
    (hcrc : receivedCrc s = s.rxCrc) :
    ∃ t, feedAll breakBytes s = .next t ∧
      t.evOut = s.evOut ++ [.frame s.rxNode (Memory.bytes s.rxBuf 1 (s.rxLen - 3))] := by
  refine ⟨_, feedAll_breakBytes h, ?_⟩
  rw [rxComplete_eq, rxOutcome_accepted (s := { s with delim := 2 }) ho hl hcrc]
  rfl

/-- R79, R176: a frame with its CRC that fits, fed with its closing break in Addressing, delivers header and payload. -/
theorem feedAll_frame_delivers {s : State} {node : Byte} (seq : Byte) {hdr : Byte} {payload : List Byte} (hinv : s.Inv)
    (hf : s.fault = none) (hs : decoderState s = .addressing) (hn : node.toNat < s.cfg.maxNodes)
    (hfit : payload.length + 4 ≤ s.cfg.rxCapacity) :
    ∃ t, feedAll (escape (frameBytes s.cfg node seq hdr payload) ++ breakBytes) s = .next t ∧
      t.evOut = s.evOut ++ [.frame node (hdr :: payload)] := by
  obtain ⟨-, -, hrx⟩ := State.inv_iff.1 hinv
  rw [frameBytes]
  generalize hcrc : crcFold s.cfg s.cfg.crcInit (frameBody node seq hdr payload) = crc
  rw [frameBody, List.cons_append, feedAll_escape_frame hinv hn hs hf]
  have htokens := (openAssembly_betweenTokens node hf).append (seq :: hdr :: payload ++ crcBytes crc)
  have hlen : (seq :: hdr :: payload ++ crcBytes crc).length = (seq :: hdr :: payload).length + 2 := List.length_append
  obtain ⟨buf, e, hbytes⟩ := rxAppendAll_empty (s := openAssembly node s) (bytes := seq :: hdr :: payload ++ crcBytes crc) rfl
    (hlen.trans_le hfit) hrx.buf_wf
  obtain ⟨hframe, hlast⟩ := Memory.bytes_split hbytes
  rw [hlen, Nat.add_sub_cancel, hframe] at e
  rw [e] at htokens ⊢
  rw [Nat.zero_add] at hlast
  obtain ⟨t, ht, hev⟩ :=
    feedAll_breakBytes_accepted htokens rfl (by simp) ((receivedCrc_of_crcBytes rfl hlast).trans hcrc.symm)
  refine ⟨t, ht, hev.trans ?_⟩
  exact congrArg (fun delivered => s.evOut ++ [.frame node delivered]) (List.cons.inj hframe).2

/-- Settles O48: what the transmitter sends (O30) is an opening break if one was due and then the escaped frame with its CRC, which
the decoder delivers. -/
theorem roundTripDeliversTheFrame : Obligations.RoundTripDeliversTheFrame := by
  intro st sr node hdr writes hinv hcfg hft hfr hn hw hfit hb hstart
  obtain ⟨hlegal, htx, hrx⟩ := State.inv_iff.1 hinv
  obtain ⟨tt, hsend, hout, -⟩ := frameOnTheWire st node hdr writes (hcfg ▸ hlegal) hft hn hw
  have haddressed : decoderState { sr with delim := 2 } = .addressing := decoderState_addressing.2 ⟨hb, rfl⟩
  have hinv' : State.Inv { sr with delim := 2 } :=
    State.inv_iff.2 ⟨hlegal, { htx with }, hrx.withDelim fun hbusy => absurd (hb.symm.trans hbusy) (by decide)⟩
  rw [← hcfg] at hn hfit
  obtain ⟨tr, hfeed, hev⟩ := feedAll_frame_delivers (tableGet st.txSeq node) hinv' hfr haddressed hn hfit
  have hopening : sr.delim = 2 ∨ (st.txActive || st.needBreak) = true := by
    rw [Bool.or_eq_true]
    exact hstart.imp_left fun h => (decoderState_addressing.1 h).2
  refine ⟨tt, _, tr, hsend, hout, ?_, hev⟩
  rw [wireBytes, wireBytes_append, wireBytes_map_byte, wireFrame, List.append_assoc, List.append_assoc,
    feedAll_opening hb hfr hopening, ← hcfg, show wireBytes [.stop] = [] from rfl, List.append_nil]
  exact hfeed

end Sys2Proof.Machine
end

section
/-! SUPPORT. The obligation about what RX_STATUS leaves (spec 43_statistics.md R200 to R202). -/

namespace Sys2Proof.Machine

/-- R201: the two counters stand in the response word side by side, so the word is read back as a number in base 2^16. -/
theorem statusWord_toNat (good lost : Half) : (statusWord good lost).toNat = good.toNat * 65536 + lost.toNat := by
  have hgood : (good.setWidth 32 <<< 16).toNat = good.toNat <<< 16 := by
    rw [BitVec.toNat_shiftLeft, BitVec.toNat_setWidth_of_le (by decide), Nat.shiftLeft_eq]
    exact Nat.mod_eq_of_lt (by omega)
  rw [statusWord, BitVec.toNat_or, hgood, BitVec.toNat_setWidth_of_le (by decide), ← Nat.shiftLeft_add_eq_or_of_lt lost.isLt,
    Nat.shiftLeft_eq]

/-- Settles O49: the response word is `statusWord` of the two counters, and each table is written at the node's entry only. -/
theorem rxStatusReadsAndClears : Obligations.RxStatusReadsAndClears := by
  intro s node
  refine ⟨fun hn => ?_, exec_rxStatus_bad⟩
  refine ⟨_, _, exec_rxStatus_valid hn, statusWord_toNat _ _, rfl, tableGet_tableSet_zero _ _, tableGet_tableSet_zero _ _, ?_⟩
  exact fun other ho => ⟨tableGet_tableSet_ne _ _ ho, tableGet_tableSet_ne _ _ ho⟩

end Sys2Proof.Machine
end

section
/-! SUPPORT. The obligations about the model faults (spec 60_exceptions.md R230 to R232): their causes, and the stop that follows. -/

namespace Sys2Proof.Machine

/-- Settles O8: a marked state's step, whatever inputs are left. -/
theorem markedStateStops : Obligations.MarkedStateStops := fun _ _ => step_marked

/-- Settles O18: `exec` of both commands for a node past the last; node 255 has the marker `0xFF - 255`. -/
theorem badNodeRaisesItsFault : Obligations.BadNodeRaisesItsFault :=
  ⟨fun _ _ hdr hn => ⟨exec_txBegin_bad hdr hn, exec_rxStatus_bad hn⟩, by decide⟩

/-- Settles O19: the frame is checked before the length (R138), so the list may be any. -/
theorem noOpenFrameRaisesItsFault : Obligations.NoOpenFrameRaisesItsFault :=
  fun _ data ha => ⟨exec_txWrite_inactive data ha, exec_txEnd_inactive ha⟩

/-- R231, R232: `r` is a fault that command `i` has a cause for in `s`. -/
def FaultCause (i : Instr) (s : State) (r : Fault) : Prop :=
  (r = .badNode ∧
    ((∃ node hdr, i = .txBegin node hdr ∧ s.cfg.maxNodes ≤ node.toNat) ∨
      ∃ node, i = .rxStatus node ∧ s.cfg.maxNodes ≤ node.toNat)) ∨
  (r = .txNotActive ∧ s.txActive = false ∧ (i = .txEnd ∨ ∃ data, i = .txWrite data))

/-- R230: a command leaves the fault mark as it is, or raises a fault that it has a cause for, and does nothing else. -/
theorem exec_keeps_fault_or_raises {i : Instr} {s t : State} (e : exec i s = .next t) :
    t.fault = s.fault ∨ ∃ r, t = raise r s ∧ FaultCause i s r := by
  cases i with
  | txBegin node hdr =>
    rcases Nat.lt_or_ge node.toNat s.cfg.maxNodes with hn | hn
    · cases (exec_txBegin_valid hdr hn).symm.trans e
      exact .inl (by rw [escPutAll_fault, openFrame_eq])
    · cases (exec_txBegin_bad hdr hn).symm.trans e
      exact .inr ⟨_, rfl, .inl ⟨rfl, .inl ⟨node, hdr, rfl, hn⟩⟩⟩
  | txWrite data =>
    cases ha : s.txActive with
    | false =>
      cases (exec_txWrite_inactive data ha).symm.trans e
      exact .inr ⟨_, rfl, .inr ⟨rfl, ha, .inr ⟨data, rfl⟩⟩⟩
    | true =>
      rcases Nat.lt_or_ge s.cfg.maxTransmit data.length with hl | hl
      · cases (exec_txWrite_oversized ha hl).symm.trans e
        exact .inl rfl
      · cases (exec_txWrite_sends ha hl).symm.trans e
        exact .inl (escPutAll_fault data s)
  | txEnd =>
    cases ha : s.txActive with
    | false =>
      cases (exec_txEnd_inactive ha).symm.trans e
      exact .inr ⟨_, rfl, .inr ⟨rfl, ha, .inl rfl⟩⟩
    | true =>
      cases (exec_txEnd_active ha).symm.trans e
      exact .inl (closeFrame_fault s)
  | txResync =>
    cases e
    exact .inl rfl
  | rxFeed c =>
    obtain ⟨_, e', hfault, -⟩ := rxFeedNeverFaults s c
    cases e'.symm.trans e
    exact .inl hfault
  | rxStatus node =>
    rcases Nat.lt_or_ge node.toNat s.cfg.maxNodes with hn | hn
    · cases (exec_rxStatus_valid hn).symm.trans e
      exact .inl rfl
    · cases (exec_rxStatus_bad hn).symm.trans e
      exact .inr ⟨_, rfl, .inl ⟨rfl, .inr ⟨node, rfl, hn⟩⟩⟩

/-- Settles O17: from an unmarked state to a marked one, the mark was not kept, so it was raised, and by its cause. -/
theorem faultsHaveTheirCauses : Obligations.FaultsHaveTheirCauses := by
  intro i s t r hs e ht
  obtain hkept | ⟨r', rfl, hcause⟩ := exec_keeps_fault_or_raises e
  · rw [ht, hs] at hkept
    cases hkept
  · cases ht
    exact ⟨rfl, hcause⟩

end Sys2Proof.Machine
end

section
/-! SUPPORT. The obligation about the state after an error event (spec 60_exceptions.md R223). -/

namespace Sys2Proof.Machine

theorem ne_of_appends_event {before after : List Event} {event : Event} (h : after = before ++ [event]) : after ≠ before :=
  fun hsame => by simp [hsame] at h

/-- R138 to R140: of the transmit commands only an oversized TX_WRITE on an open frame appends an event, and does nothing else. -/
theorem exec_transmit_evOut_cases {i : Instr} (hi : isTransmit i = true) {s t : State} (e : exec i s = .next t) :
    t.evOut = s.evOut ∨ s.txActive = true ∧ ∃ count, t = report .txOversize count s := by
  cases i with
  | txBegin node hdr =>
    rcases Nat.lt_or_ge node.toNat s.cfg.maxNodes with hn | hn
    · cases (exec_txBegin_valid hdr hn).symm.trans e
      exact .inl (by rw [escPutAll_evOut, openFrame_eq])
    · cases (exec_txBegin_bad hdr hn).symm.trans e
      exact .inl rfl
  | txWrite data =>
    cases ha : s.txActive with
    | false =>
      cases (exec_txWrite_inactive data ha).symm.trans e
      exact .inl rfl
    | true =>
      rcases Nat.lt_or_ge s.cfg.maxTransmit data.length with hl | hl
      · cases (exec_txWrite_oversized ha hl).symm.trans e
        exact .inr ⟨rfl, _, rfl⟩
      · cases (exec_txWrite_sends ha hl).symm.trans e
        exact .inl (escPutAll_evOut data s)
  | txEnd =>
    cases ha : s.txActive with
    | false =>
      cases (exec_txEnd_inactive ha).symm.trans e
      exact .inl rfl
    | true =>
      cases (exec_txEnd_active ha).symm.trans e
      exact .inl (closeFrame_evOut s)
  | txResync =>
    cases e
    exact .inl rfl
  | rxFeed c => cases hi
  | rxStatus node => cases hi

theorem exec_rxStatus_evOut {node : Byte} {s t : State} (e : exec (.rxStatus node) s = .next t) : t.evOut = s.evOut := by
  rcases Nat.lt_or_ge node.toNat s.cfg.maxNodes with hn | hn
  · cases (exec_rxStatus_valid hn).symm.trans e
    rfl
  · cases (exec_rxStatus_bad hn).symm.trans e
    rfl

/-- R140: an error a transmit command reports is TX_OVERSIZE, and the report is all it does. -/
theorem exec_transmit_error {i : Instr} (hi : isTransmit i = true) {s t : State} {kind : ErrKind} {info : Half}
    (e : exec i s = .next t) (hev : t.evOut = s.evOut ++ [.error kind info]) :
    kind = .txOversize ∧ t.transmitPart = s.transmitPart ∧ t.txActive = true := by
  obtain hnone | ⟨ha, count, rfl⟩ := exec_transmit_evOut_cases hi e
  · exact absurd hnone (ne_of_appends_event hev)
  · cases List.append_cancel_left hev
    exact ⟨rfl, rfl, ha⟩

/-- R165, R172 to R174: an error RX_FEED reports is ADDR, which leaves the decoder Idle, or the CRC error or the overflow of a
completed frame. -/
theorem exec_rxFeed_error {c : Byte} {s t : State} {kind : ErrKind} {info : Half} (e : exec (.rxFeed c) s = .next t)
    (hev : t.evOut = s.evOut ++ [.error kind info]) :
    (kind = .addr ∧ decoderState t = .idle) ∨
    ((kind = .crc ∨ kind = .overflow) ∧ t = rxComplete { s with delim := 2, rxBusy := false }) := by
  obtain hnone | ⟨hstate, hc, hn, hevent⟩ | ⟨hstate, hd, rfl, -, -, event, hevent, hkind⟩ := atMostOneEventPerByte s t c e
  · exact absurd hnone (ne_of_appends_event hev)
  · obtain ⟨-, hinvalid⟩ := markerInAddressing s c hstate hc
    obtain ⟨_, e', -, hidle, -⟩ := hinvalid hn
    cases e'.symm.trans e
    cases List.append_cancel_left (hevent.symm.trans hev)
    exact .inl ⟨rfl, hidle⟩
  · cases (exec_rxFeed_delimiter_completes (decoderState_receiving.1 hstate) hd).symm.trans e
    cases List.append_cancel_left (hevent.symm.trans hev)
    refine .inr ⟨?_, rfl⟩
    obtain ⟨_, ⟨⟩⟩ | ⟨_, ⟨⟩⟩ | ⟨_, _, ⟨⟩⟩ := hkind
    · exact .inr rfl
    · exact .inl rfl

/-- R178: a completion leaves the decoder in Addressing and the assembly state reset. -/
theorem decoder_ready_of_completion {s t : State} (h : t = rxComplete { s with delim := 2, rxBusy := false }) :
    decoderState t = .addressing ∧ t.rxLen = 0 ∧ t.rxOvf = false ∧ t.rxCrc = t.cfg.crcInit := by
  subst h
  exact ⟨rxComplete_addressing s, rfl, rfl, by rw [rxComplete_eq]⟩

/-- Settles O45: the error's kind tells which command reported it, and what that command left. -/
theorem errorsLeaveTheBlockReady : Obligations.ErrorsLeaveTheBlockReady := by
  intro i s t kind info e hev
  cases hi : isTransmit i with
  | true =>
    obtain ⟨rfl, hpart, hactive⟩ := exec_transmit_error hi e hev
    exact ⟨nofun, nofun, fun _ => ⟨hpart, hactive⟩⟩
  | false =>
    cases i with
    | rxFeed c =>
      obtain ⟨rfl, hidle⟩ | ⟨rfl | rfl, hdone⟩ := exec_rxFeed_error e hev
      · exact ⟨fun _ => hidle, nofun, nofun⟩
      · exact ⟨nofun, fun _ => decoder_ready_of_completion hdone, nofun⟩
      · exact ⟨nofun, fun _ => decoder_ready_of_completion hdone, nofun⟩
    | rxStatus node => exact absurd (exec_rxStatus_evOut e) (ne_of_appends_event hev)
    | txBegin node hdr => cases hi
    | txWrite data => cases hi
    | txEnd => cases hi
    | txResync => cases hi

end Sys2Proof.Machine
end

section
/-! SUPPORT. The obligations about reset (spec 70_reset_and_hazards.md R250, R252): what it leaves, and that the state before it has no
part in that. -/

namespace Sys2Proof.Machine

/-- R252: from any state, marked or not, a legal reset is taken, and the state after it is the reset state with the later inputs. -/
theorem step_legal_reset {s : State} {c : Config} {rest : List HostInput} (hc : c.Legal) (hp : s.pending = .reset c :: rest) :
    step s = .next { State.resetWith c with pending := rest } := by
  rw [step_reset hp, applyReset, if_pos hc]

/-- R28, R29: without a frame in progress and without a delimiter the decoder is Idle. -/
theorem State.resetWith_idle (c : Config) (rest : List HostInput) :
    decoderState { State.resetWith c with pending := rest } = .idle :=
  decoderState_idle.2 ⟨rfl, show (0 : Fin 3) ≠ 2 by decide⟩

/-- Settles O10: the state after the reset is `State.resetWith c`, which has each field at the value of R250's table. -/
theorem resetLeavesTheResetValues : Obligations.ResetLeavesTheResetValues := by
  intro s c rest hc _ hp
  exact ⟨_, step_legal_reset hc hp, rfl, rfl,
    rfl, rfl, rfl, rfl, rfl, -- transmit path, R23 to R27
    rfl, rfl, State.resetWith_idle c rest, rfl, rfl, rfl, rfl, rfl, -- decoder and assembly, R28 to R35
    rfl, rfl, -- statistics, R36 and R37
    rfl, rfl, rfl, rfl⟩ -- traces and mark, R38 to R41

/-- Settles O11: the state after a reset is made of its configuration and the later inputs alone, and these agree. -/
theorem resetForgetsTheState : Obligations.ResetForgetsTheState := by
  intro s₁ s₂ c rest hc hp₁ hp₂
  exact ⟨_, step_legal_reset hc hp₁, step_legal_reset hc hp₂, rfl, Memory.read_nil⟩

end Sys2Proof.Machine
end
